-- ==== Sys2Proof/Word.lean ====
section
/-! DEFINITION. The word types of the core (00_scope.md R5, R6, R8; 30_encoding.md R71). -/

namespace Sys2Proof

/-- One byte: a general register, a timer, a byte of memory (R5 `V_WIDTH`, `TIMER_WIDTH`). -/
abbrev Byte := BitVec 8

/-- Sixteen bits: an instruction word, `I`, `PC`, a stack slot (R5). -/
abbrev Word := BitVec 16

/-- The field `nnn`: an unsigned 12-bit address (R71, R72). -/
abbrev Addr := BitVec 12

/-- A 4-bit field of an instruction word (R15 "Nibble", R71). -/
abbrev Nibble := BitVec 4

/-- A general register's number, `V0` to `VF` (R22), which is also what a 4-bit selector names (R73). -/
abbrev Reg := Fin 16

/-- A logical key's number, `0x0` to `0xF` (R32). -/
abbrev KeyIndex := Fin 16

end Sys2Proof
end

