-- ==== Sys2Proof/Syntax.lean ====
section
/-! DEFINITION. The instructions of the core: the 34 rows of 30_encoding.md R82, one constructor each, in the
table's order. -/

namespace Sys2Proof

/-- An instruction with its operands (30_encoding.md R71–R73, R82). `ignored` and `yIgnored` are bits of the word
that have no meaning (R76, R77, R84): they are kept because the fault record holds the whole word (R215; entry 8).
The row count `n` is a number; `WellFormed` says it fits its four bits. -/
inductive Instr where
  /-- 1. `CLS`, `0.E0` (R120). -/
  | cls (ignored : Nibble)
  /-- 2. `RET`, `0.EE` (R121). -/
  | ret (ignored : Nibble)
  /-- 3. `JP addr`, `1nnn` (R122). -/
  | jp (nnn : Addr)
  /-- 4. `CALL addr`, `2nnn` (R123). -/
  | call (nnn : Addr)
  /-- 5. `SE Vx,kk`, `3xkk` (R125). -/
  | seKk (x : Reg) (kk : Byte)
  /-- 6. `SNE Vx,kk`, `4xkk` (R126). -/
  | sneKk (x : Reg) (kk : Byte)
  /-- 7. `SE Vx,Vy`, `5xy.` (R127). -/
  | seXy (x y : Reg) (ignored : Nibble)
  /-- 8. `LD Vx,kk`, `6xkk` (R141). -/
  | ldKk (x : Reg) (kk : Byte)
  /-- 9. `ADD Vx,kk`, `7xkk` (R142). -/
  | addKk (x : Reg) (kk : Byte)
  /-- 10. `LD Vx,Vy`, `8xy0` (R143). -/
  | ldXy (x y : Reg)
  /-- 11. `OR Vx,Vy`, `8xy1` (R144). -/
  | orXy (x y : Reg)
  /-- 12. `AND Vx,Vy`, `8xy2` (R145). -/
  | andXy (x y : Reg)
  /-- 13. `XOR Vx,Vy`, `8xy3` (R146). -/
  | xorXy (x y : Reg)
  /-- 14. `ADD Vx,Vy`, `8xy4` (R147). -/
  | addXy (x y : Reg)
  /-- 15. `SUB Vx,Vy`, `8xy5` (R148). -/
  | sub (x y : Reg)
  /-- 16. `SHR Vx`, `8xy6` (R149). -/
  | shr (x : Reg) (yIgnored : Nibble)
  /-- 17. `SUBN Vx,Vy`, `8xy7` (R150). -/
  | subn (x y : Reg)
  /-- 18. `SHL Vx`, `8xyE` (R151). -/
  | shl (x : Reg) (yIgnored : Nibble)
  /-- 19. `SNE Vx,Vy`, `9xy.` (R128). -/
  | sneXy (x y : Reg) (ignored : Nibble)
  /-- 20. `LD I,addr`, `Annn` (R190). -/
  | ldI (nnn : Addr)
  /-- 21. `JP V0,addr`, `Bnnn` (R124). -/
  | jpV0 (nnn : Addr)
  /-- 22. `RND Vx,kk`, `Cxkk` (R155). -/
  | rnd (x : Reg) (kk : Byte)
  /-- 23. `DRW Vx,Vy,n`, `Dxyn` (R170). -/
  | drw (x y : Reg) (n : Nat)
  /-- 24. `SKP Vx`, `Ex9E` (R180). -/
  | skp (x : Reg)
  /-- 25. `SKNP Vx`, `ExA1` (R181). -/
  | sknp (x : Reg)
  /-- 26. `LD Vx,DT`, `Fx07` (R191). -/
  | ldXDt (x : Reg)
  /-- 27. `LD Vx,K`, `Fx0A` (R192). -/
  | ldXK (x : Reg)
  /-- 28. `LD DT,Vx`, `Fx15` (R194). -/
  | ldDtX (x : Reg)
  /-- 29. `LD ST,Vx`, `Fx18` (R195). -/
  | ldStX (x : Reg)
  /-- 30. `ADD I,Vx`, `Fx1E` (R196). -/
  | addIX (x : Reg)
  /-- 31. `LD F,Vx`, `Fx29` (R197). -/
  | ldFX (x : Reg)
  /-- 32. `LD B,Vx`, `Fx33` (R198). -/
  | ldBX (x : Reg)
  /-- 33. `LD [I],Vx`, `Fx55` (R199). -/
  | ldMemX (x : Reg)
  /-- 34. `LD Vx,[I]`, `Fx65` (R200). -/
  | ldXMem (x : Reg)
deriving DecidableEq, Repr

end Sys2Proof
end

