-- ==== Sys2Proof/WellFormed.lean ====
section
/-! DEFINITION. Which terms of `Instr` stand for a word: every operand but one has a type that holds exactly the
values of its field (30_encoding.md R71); the row count of `DRW` is a number and must fit four bits (R72). -/

namespace Sys2Proof

/-- The instruction has an encoding: a sprite has 0 to 15 rows (R72, R174). -/
def WellFormed : Instr → Bool
  | .drw _ _ n => n ≤ 15
  | .cls _ | .ret _ | .jp _ | .call _ | .seKk _ _ | .sneKk _ _ | .seXy _ _ _ | .ldKk _ _ | .addKk _ _
  | .ldXy _ _ | .orXy _ _ | .andXy _ _ | .xorXy _ _ | .addXy _ _ | .sub _ _ | .shr _ _ | .subn _ _
  | .shl _ _ | .sneXy _ _ _ | .ldI _ | .jpV0 _ | .rnd _ _ | .skp _ | .sknp _ | .ldXDt _ | .ldXK _
  | .ldDtX _ | .ldStX _ | .addIX _ | .ldFX _ | .ldBX _ | .ldMemX _ | .ldXMem _ => true

end Sys2Proof
end

