-- ==== Sys2Proof/Decode.lean ====
section
/-! DEFINITION. From bytes to instructions and back (30_encoding.md R70–R85; 20_memory.md R53). -/

namespace Sys2Proof

/-! ## The fields of a word (R71) -/

/-- `op = w[15:12]`. -/
def opField (w : Word) : Nibble := w.extractLsb' 12 4

/-- The bits `w[11:8]`, the selector `x`. -/
def xField (w : Word) : Nibble := w.extractLsb' 8 4

/-- The bits `w[7:4]`, the selector `y`. -/
def yField (w : Word) : Nibble := w.extractLsb' 4 4

/-- `n = w[3:0]`. -/
def nField (w : Word) : Nibble := w.extractLsb' 0 4

/-- `kk = w[7:0]`. -/
def kkField (w : Word) : Byte := w.extractLsb' 0 8

/-- `nnn = w[11:0]`. -/
def nnnField (w : Word) : Addr := w.extractLsb' 0 12

/-- The register a selector names (R73). -/
def regOf (b : Nibble) : Reg := b.toFin

/-- The selector that names a register (R73). -/
def selOf (r : Reg) : Nibble := BitVec.ofFin r

/-! ## Decoding (R78) -/

/-- The 0 family dispatches on `kk`; the `x` bits take no part (R76). -/
def decode0 (w : Word) : Option Instr :=
  match kkField w with
  | 0xE0#8 => some (.cls (xField w))
  | 0xEE#8 => some (.ret (xField w))
  | _ => none

/-- The 8 family dispatches on `n` (R79). -/
def decode8 (w : Word) : Option Instr :=
  let x := regOf (xField w)
  let y := regOf (yField w)
  match nField w with
  | 0x0#4 => some (.ldXy x y)
  | 0x1#4 => some (.orXy x y)
  | 0x2#4 => some (.andXy x y)
  | 0x3#4 => some (.xorXy x y)
  | 0x4#4 => some (.addXy x y)
  | 0x5#4 => some (.sub x y)
  | 0x6#4 => some (.shr x (yField w))
  | 0x7#4 => some (.subn x y)
  | 0xE#4 => some (.shl x (yField w))
  | _ => none

/-- The E family dispatches on `kk` (R80). -/
def decodeE (w : Word) : Option Instr :=
  match kkField w with
  | 0x9E#8 => some (.skp (regOf (xField w)))
  | 0xA1#8 => some (.sknp (regOf (xField w)))
  | _ => none

/-- The F family dispatches on `kk` (R81). -/
def decodeF (w : Word) : Option Instr :=
  let x := regOf (xField w)
  match kkField w with
  | 0x07#8 => some (.ldXDt x)
  | 0x0A#8 => some (.ldXK x)
  | 0x15#8 => some (.ldDtX x)
  | 0x18#8 => some (.ldStX x)
  | 0x1E#8 => some (.addIX x)
  | 0x29#8 => some (.ldFX x)
  | 0x33#8 => some (.ldBX x)
  | 0x55#8 => some (.ldMemX x)
  | 0x65#8 => some (.ldXMem x)
  | _ => none

/-- The decode function of R78, total on every word; `none` is the spec's `Unknown` (R83). The last arm is the
leading nibble `F`: all 16 leading nibbles have an entry (R75). -/
def decodeWord (w : Word) : Option Instr :=
  let x := regOf (xField w)
  let y := regOf (yField w)
  match opField w with
  | 0x0#4 => decode0 w
  | 0x1#4 => some (.jp (nnnField w))
  | 0x2#4 => some (.call (nnnField w))
  | 0x3#4 => some (.seKk x (kkField w))
  | 0x4#4 => some (.sneKk x (kkField w))
  | 0x5#4 => some (.seXy x y (nField w))
  | 0x6#4 => some (.ldKk x (kkField w))
  | 0x7#4 => some (.addKk x (kkField w))
  | 0x8#4 => decode8 w
  | 0x9#4 => some (.sneXy x y (nField w))
  | 0xA#4 => some (.ldI (nnnField w))
  | 0xB#4 => some (.jpV0 (nnnField w))
  | 0xC#4 => some (.rnd x (kkField w))
  | 0xD#4 => some (.drw x y (nField w).toNat)
  | 0xE#4 => decodeE w
  | _ => decodeF w

/-- The instruction word of two consecutive bytes: the first is the high byte (R53). -/
def wordOfBytes (high low : Byte) : Word := high ++ low

/-- The first byte of a word in memory (R53). -/
def highByte (w : Word) : Byte := w.extractLsb' 8 8

/-- The second byte of a word in memory (R53). -/
def lowByte (w : Word) : Byte := w.extractLsb' 0 8

/-- Why bytes are no instruction. -/
inductive DecodeError where
  /-- The word has no handler (R83). -/
  | unknownOpcode (w : Word)
  /-- Fewer than two bytes are left: an instruction always takes two (R70). -/
  | truncated
deriving DecidableEq, Repr

/-- The instruction at the head of a byte list and the bytes after it: always exactly two are consumed (R70, R85). -/
def decode : List Byte → Except DecodeError (Instr × List Byte)
  | high :: low :: rest =>
    match decodeWord (wordOfBytes high low) with
    | some i => .ok (i, rest)
    | none => .error (.unknownOpcode (wordOfBytes high low))
  | _ => .error .truncated

/-! ## Encoding (R82) -/

/-- The form `op x y n`. -/
def packXyn (op x y n : Nibble) : Word := op ++ x ++ y ++ n

/-- The form `op x kk`. -/
def packXkk (op x : Nibble) (kk : Byte) : Word := op ++ x ++ kk

/-- The form `op nnn`. -/
def packNnn (op : Nibble) (nnn : Addr) : Word := op ++ nnn

/-- The word of an instruction: its row of R82 with the operands in their fields. -/
def encode : Instr → Word
  | .cls ignored => packXkk 0x0 ignored 0xE0
  | .ret ignored => packXkk 0x0 ignored 0xEE
  | .jp nnn => packNnn 0x1 nnn
  | .call nnn => packNnn 0x2 nnn
  | .seKk x kk => packXkk 0x3 (selOf x) kk
  | .sneKk x kk => packXkk 0x4 (selOf x) kk
  | .seXy x y ignored => packXyn 0x5 (selOf x) (selOf y) ignored
  | .ldKk x kk => packXkk 0x6 (selOf x) kk
  | .addKk x kk => packXkk 0x7 (selOf x) kk
  | .ldXy x y => packXyn 0x8 (selOf x) (selOf y) 0x0
  | .orXy x y => packXyn 0x8 (selOf x) (selOf y) 0x1
  | .andXy x y => packXyn 0x8 (selOf x) (selOf y) 0x2
  | .xorXy x y => packXyn 0x8 (selOf x) (selOf y) 0x3
  | .addXy x y => packXyn 0x8 (selOf x) (selOf y) 0x4
  | .sub x y => packXyn 0x8 (selOf x) (selOf y) 0x5
  | .shr x yIgnored => packXyn 0x8 (selOf x) yIgnored 0x6
  | .subn x y => packXyn 0x8 (selOf x) (selOf y) 0x7
  | .shl x yIgnored => packXyn 0x8 (selOf x) yIgnored 0xE
  | .sneXy x y ignored => packXyn 0x9 (selOf x) (selOf y) ignored
  | .ldI nnn => packNnn 0xA nnn
  | .jpV0 nnn => packNnn 0xB nnn
  | .rnd x kk => packXkk 0xC (selOf x) kk
  | .drw x y n => packXyn 0xD (selOf x) (selOf y) (BitVec.ofNat 4 n)
  | .skp x => packXkk 0xE (selOf x) 0x9E
  | .sknp x => packXkk 0xE (selOf x) 0xA1
  | .ldXDt x => packXkk 0xF (selOf x) 0x07
  | .ldXK x => packXkk 0xF (selOf x) 0x0A
  | .ldDtX x => packXkk 0xF (selOf x) 0x15
  | .ldStX x => packXkk 0xF (selOf x) 0x18
  | .addIX x => packXkk 0xF (selOf x) 0x1E
  | .ldFX x => packXkk 0xF (selOf x) 0x29
  | .ldBX x => packXkk 0xF (selOf x) 0x33
  | .ldMemX x => packXkk 0xF (selOf x) 0x55
  | .ldXMem x => packXkk 0xF (selOf x) 0x65

/-- The two bytes of an instruction as memory holds them, high byte first (R53, R70). -/
def encodeBytes (i : Instr) : List Byte := [highByte (encode i), lowByte (encode i)]

/-! ## The opcode map (R82) -/

/-- One row of R82: a word is of the row when `w & mask = value`. -/
structure OpcodeRow where
  mnemonic : String
  mask : Word
  value : Word
deriving DecidableEq, Repr

/-- The 34 rows of R82, in its order. -/
def opcodeRows : List OpcodeRow :=
  [⟨"CLS", 0xF0FF, 0x00E0⟩, ⟨"RET", 0xF0FF, 0x00EE⟩, ⟨"JP_addr", 0xF000, 0x1000⟩, ⟨"CALL_addr", 0xF000, 0x2000⟩,
   ⟨"SE_Vx_kk", 0xF000, 0x3000⟩, ⟨"SNE_Vx_kk", 0xF000, 0x4000⟩, ⟨"SE_Vx_Vy", 0xF000, 0x5000⟩,
   ⟨"LD_Vx_kk", 0xF000, 0x6000⟩, ⟨"ADD_Vx_kk", 0xF000, 0x7000⟩]
  ++ [⟨"LD_Vx_Vy", 0xF00F, 0x8000⟩, ⟨"OR_Vx_Vy", 0xF00F, 0x8001⟩, ⟨"AND_Vx_Vy", 0xF00F, 0x8002⟩,
   ⟨"XOR_Vx_Vy", 0xF00F, 0x8003⟩, ⟨"ADD_Vx_Vy", 0xF00F, 0x8004⟩, ⟨"SUB_Vx_Vy", 0xF00F, 0x8005⟩,
   ⟨"SHR_Vx", 0xF00F, 0x8006⟩, ⟨"SUBN_Vx_Vy", 0xF00F, 0x8007⟩, ⟨"SHL_Vx", 0xF00F, 0x800E⟩]
  ++ [⟨"SNE_Vx_Vy", 0xF000, 0x9000⟩, ⟨"LD_I_addr", 0xF000, 0xA000⟩, ⟨"JP_V0_addr", 0xF000, 0xB000⟩,
   ⟨"RND_Vx_kk", 0xF000, 0xC000⟩, ⟨"DRW_Vx_Vy_n", 0xF000, 0xD000⟩, ⟨"SKP_Vx", 0xF0FF, 0xE09E⟩,
   ⟨"SKNP_Vx", 0xF0FF, 0xE0A1⟩]
  ++ [⟨"LD_Vx_DT", 0xF0FF, 0xF007⟩, ⟨"LD_Vx_K", 0xF0FF, 0xF00A⟩, ⟨"LD_DT_Vx", 0xF0FF, 0xF015⟩,
   ⟨"LD_ST_Vx", 0xF0FF, 0xF018⟩, ⟨"ADD_I_Vx", 0xF0FF, 0xF01E⟩, ⟨"LD_F_Vx", 0xF0FF, 0xF029⟩,
   ⟨"LD_B_Vx", 0xF0FF, 0xF033⟩, ⟨"LD__I__Vx", 0xF0FF, 0xF055⟩, ⟨"LD_Vx__I", 0xF0FF, 0xF065⟩]

/-- The number of an instruction's row in R82's first column, 1 to 34. -/
def rowNumber : Instr → Nat
  | .cls _ => 1 | .ret _ => 2 | .jp _ => 3 | .call _ => 4 | .seKk _ _ => 5 | .sneKk _ _ => 6
  | .seXy _ _ _ => 7 | .ldKk _ _ => 8 | .addKk _ _ => 9 | .ldXy _ _ => 10 | .orXy _ _ => 11
  | .andXy _ _ => 12 | .xorXy _ _ => 13 | .addXy _ _ => 14 | .sub _ _ => 15 | .shr _ _ => 16
  | .subn _ _ => 17 | .shl _ _ => 18 | .sneXy _ _ _ => 19 | .ldI _ => 20 | .jpV0 _ => 21 | .rnd _ _ => 22
  | .drw _ _ _ => 23 | .skp _ => 24 | .sknp _ => 25 | .ldXDt _ => 26 | .ldXK _ => 27 | .ldDtX _ => 28
  | .ldStX _ => 29 | .addIX _ => 30 | .ldFX _ => 31 | .ldBX _ => 32 | .ldMemX _ => 33 | .ldXMem _ => 34

/-- The row of R82 an instruction belongs to. -/
def rowOf (i : Instr) : Option OpcodeRow := opcodeRows[rowNumber i - 1]?

/-- The word is of the row: `(w & mask) = match` (R82). -/
def OpcodeRow.matches (r : OpcodeRow) (w : Word) : Bool := w &&& r.mask == r.value

/-! ## The host's question about one table word -/

/-- The instruction the decoder reads from the word whose `nbits` low bits are those of `w` and whose other bits
are 0. Every instruction is one 16-bit word (R70), so more than 16 bits are none. -/
def decodeTableWord (nbits w : Nat) : Option Instr :=
  if nbits ≤ 16 then
    let word : Word := BitVec.ofNat 16 (w % 2 ^ nbits)
    match decode [highByte word, lowByte word] with
    | .ok (i, _) => some i
    | .error _ => none
  else none

end Sys2Proof
end

