-- ==== Sys2Proof/Config.lean ====
section
/-! DEFINITION. What is fixed for this hardware (00_scope.md R5), and the one free value of the model. The
parameter `FONT` of R5 stands in Machine/Font.lean. -/

namespace Sys2Proof

/-- `ADDR_MAX`: the last address that exists (R5, R50). -/
def Config.addrMax : Nat := 0xFFF

/-- `FONT_BASE`: where the font table lies (R5, R54). -/
def Config.fontBase : Nat := 0x050

/-- `PROGRAM_BASE`: where a program is loaded (R5, R56). -/
def Config.programBase : Nat := 0x200

/-- `RESET_PC`: the entry point (R5, R245; the spec's decision D6). -/
def Config.resetPc : Word := 0x200

/-- `PROGRAM_MAX_LEN`: the longest program a load admits, in bytes (R5, R56, R243). -/
def Config.programMaxLen : Nat := 3584

/-- `draw_random()`, the free 8-bit input of a cycle (R12, R156): the byte the host supplies at the n-th draw.
It has no body, so nothing can be proved of its value: a claim about a draw holds for all 256 bytes.
DESIGN CHOICE (entry 1): the draws of a run are numbered by `State.draws`. -/
opaque Config.randomByte : Nat → Byte

end Sys2Proof
end

