-- ==== Sys2Proof/Machine/State.lean ====
section
/-! DEFINITION. The complete state of the core (10_state.md R20) and its value after reset (R42). -/

namespace Sys2Proof.Machine

/-- The error kinds of 60_exceptions.md R211. -/
inductive ErrorKind where
  /-- Code 1, not fatal: a word with no handler (R212). Only a diagnostic carries it, never the fault record. -/
  | unknownOpcode
  /-- Code 2, fatal: a range of addresses passes `0xFFF` (R213). -/
  | outOfBoundsAccess
  /-- Code 3, fatal: `CALL` with `SP = 16` (R217). -/
  | stackOverflow
  /-- Code 4, fatal: `RET` with `SP = 0` (R217). -/
  | stackUnderflow
deriving DecidableEq, Repr

/-- Which access went out of bounds (60_exceptions.md R211, sub-codes 0 to 4). -/
inductive AccessKind where
  | fetch
  | spriteRead
  | bcdWrite
  | blockStore
  | blockLoad
deriving DecidableEq, Repr

/-- The fault record (60_exceptions.md R215). -/
structure FaultRecord where
  /-- The kind of the error (R211). -/
  code : ErrorKind
  /-- `pc0`, the address of the faulting instruction. -/
  pc : Word
  /-- The instruction word; `none` for a fetch fault. -/
  word : Option Word
  /-- Which access, for `OutOfBoundsAccess` only. -/
  access : Option AccessKind
  /-- The first address of the access above `0xFFF`, for `OutOfBoundsAccess` only: an exact number (R58). -/
  addr : Option Nat
deriving DecidableEq, Repr

/-- Memory as the list of the bytes that differ from their reset value, addresses rising (Machine/Memory.lean
reads and writes it and says what an unlisted address holds). DESIGN CHOICE (entry 6): the form, not the contents. -/
abbrev Memory := List Host.Cell

/-- The framebuffer: 32 rows of 64 one-bit pixels; bit `c` of row `r` is `FB[r*64 + c]` (R33). DESIGN CHOICE
(entry 7): the rows. -/
abbrev Framebuffer := Vector (BitVec 64) 32

/-- The complete state of the core (R20), and the model's own count of random draws. -/
structure State where
  /-- `Mem`, 4096 bytes (R21). -/
  mem : Memory
  /-- `V0` to `VF` (R22). -/
  v : Vector Byte 16
  /-- `I` (R25). -/
  i : Word
  /-- `PC`: at the start of a cycle, the address of the instruction to fetch (R26). -/
  pc : Word
  /-- `Stack[0]` to `Stack[15]` (R27). -/
  stack : Vector Word 16
  /-- `SP`, the number of active slots, in `[0, 16]` (R27, R29). -/
  sp : Fin 17
  /-- `DT`, the delay timer (R31). -/
  dt : Byte
  /-- `ST`, the sound timer (R31). -/
  st : Byte
  /-- `Key[0]` to `Key[15]`: is the key held? (R32) -/
  key : Vector Bool 16
  /-- `FB` (R33). -/
  fb : Framebuffer
  /-- `Wait`: the register a waiting `LD Vx,K` will write (R35). -/
  wait : Option Reg
  /-- `Fault`: the record that halts the core (R36). -/
  fault : Option FaultRecord
  /-- The model's own field, not the spec's: how many random bytes have been drawn (entry 1). -/
  draws : Nat
deriving DecidableEq, Repr

/-- No step of this model ends in the host outcome `fault`: the spec gives every fatal error its effect, a next
state whose `fault` field holds the record (R10, R214; `State.takeFault`; entry 3). So there is no reason to list. -/
inductive Fault where
deriving DecidableEq, Repr

/-- Reasons an instruction is refused. -/
inductive Refusal where
  /-- Raised by an arm of `exec` whose instruction has no meaning in the model: no arm is left so. Safe. -/
  | notModelled (mnemonic : String)
deriving DecidableEq, Repr

/-- The machine right after reset (R42, R240). Memory lists nothing: every byte holds its reset contents, the font
of R55 or zero. `draws` starts at 0: DESIGN CHOICE (entry 2). -/
def State.reset : State where
  mem := []
  v := Vector.replicate 16 0
  i := 0
  pc := Config.resetPc
  stack := Vector.replicate 16 0
  sp := 0
  dt := 0
  st := 0
  key := Vector.replicate 16 false
  fb := Vector.replicate 32 0
  wait := none
  fault := none
  draws := 0

/-- What a step answers. -/
abbrev Result := Host.Outcome State Fault Refusal

end Sys2Proof.Machine
end

