-- ==== Sys2Proof/Machine/Operands.lean ====
section
/-! DEFINITION. Every operand form of the instruction set (30_encoding.md R72, R73; 10_state.md R22). -/

namespace Sys2Proof.Machine

/-- The flag register `VF` (R23). -/
def regVF : Reg := 15

/-- `V[x]` (R8): no register is hardwired (R22). -/
def State.readV (s : State) (x : Reg) : Byte := s.v[x]

/-- `V[x] <- b` (R8). -/
def State.writeV (s : State) (x : Reg) (b : Byte) : State := { s with v := s.v.set x b }

/-- `zext_16(nnn)` (R72). -/
def zextAddr (nnn : Addr) : Word := nnn.setWidth 16

/-- `zext_16` of a byte (R7). -/
def zextByte (b : Byte) : Word := b.setWidth 16

/-- The key a skip tests: `V[x] & 0xF` (R182). -/
def keyOf (b : Byte) : KeyIndex := Fin.ofNat 16 (b &&& 0xF).toNat

/-- `Key[k]` (R8, R32). -/
def State.keyHeld (s : State) (k : KeyIndex) : Bool := s.key[k]

/-- The lowest-indexed held key, if any is held: `min { k | Key[k] }` (R102, R192). -/
def State.lowestKey (s : State) : Option KeyIndex := (List.finRange 16).find? (fun k => s.keyHeld k)

/-- A key's index as a register value (R102, R192). -/
def keyByte (k : KeyIndex) : Byte := BitVec.ofNat 8 k.val

/-- Register `V[j]` of the block `V[0]`..`V[x]` (R73). -/
def blockReg (j : Nat) : Reg := Fin.ofNat 16 j

end Sys2Proof.Machine
end

