-- ==== Sys2Proof/Machine/Flags.lean ====
section
/-! DEFINITION. The results and flags of the arithmetic instructions (10_state.md R34; 42_arithmetic.md R140,
R147–R153): exact arithmetic on numbers, truncated at the end, and the flag as a comparison. -/

namespace Sys2Proof.Machine

/-- A truth value as a flag byte: 1 or 0 (R34). -/
def flagByte (c : Bool) : Byte := if c then 1 else 0

/-- `trunc_8(a + b)` (R142, R147). -/
def addResult (a b : Byte) : Byte := BitVec.ofNat 8 (a.toNat + b.toNat)

/-- The carry out of `ADD Vx,Vy`: the exact sum exceeds 255 (R147). -/
def addFlag (a b : Byte) : Byte := flagByte (a.toNat + b.toNat > 255)

/-- `trunc_8(a - b + 256)` (R148, R150). -/
def subResult (a b : Byte) : Byte := BitVec.ofNat 8 (a.toNat + 256 - b.toNat)

/-- 1 iff `a > b` strictly, so 0 at equality (R148, R150; 90_conflicts.md C3). -/
def subFlag (a b : Byte) : Byte := flagByte (a.toNat > b.toNat)

/-- `a >> 1` (R149). -/
def shrResult (a : Byte) : Byte := a >>> 1

/-- The bit shifted out to the right, `a & 1` (R149). -/
def shrFlag (a : Byte) : Byte := a &&& 1

/-- `trunc_8(a << 1)` (R151). -/
def shlResult (a : Byte) : Byte := a <<< 1

/-- The bit shifted out to the left, `(a >> 7) & 1` (R151). -/
def shlFlag (a : Byte) : Byte := (a >>> 7) &&& 1

/-- The result first, the flag last: when `x = F` the flag remains (R152). -/
def State.writeFlagged (s : State) (x : Reg) (result flag : Byte) : State :=
  (s.writeV x result).writeV regVF flag

end Sys2Proof.Machine
end

