-- ==== Sys2Proof/Machine/Font.lean ====
section
/-! DEFINITION. The parameter `FONT` (00_scope.md R5) at its default: the 80 bytes of 20_memory.md R55. -/

namespace Sys2Proof.Machine

/-- The 16 glyphs of R55, five bytes each, glyph 0 first. UNVERIFIED: the spec takes them from general knowledge
(its decision D4; entry 11). -/
def fontBytes : List Byte :=
  ([0xF0, 0x90, 0x90, 0x90, 0xF0] : List Byte)
  ++ [0x20, 0x60, 0x20, 0x20, 0x70]
  ++ [0xF0, 0x10, 0xF0, 0x80, 0xF0]
  ++ [0xF0, 0x10, 0xF0, 0x10, 0xF0]
  ++ [0x90, 0x90, 0xF0, 0x10, 0x10]
  ++ [0xF0, 0x80, 0xF0, 0x10, 0xF0]
  ++ [0xF0, 0x80, 0xF0, 0x90, 0xF0]
  ++ [0xF0, 0x10, 0x20, 0x40, 0x40]
  ++ [0xF0, 0x90, 0xF0, 0x90, 0xF0]
  ++ [0xF0, 0x90, 0xF0, 0x10, 0xF0]
  ++ [0xF0, 0x90, 0xF0, 0x90, 0x90]
  ++ [0xE0, 0x90, 0xE0, 0x90, 0xE0]
  ++ [0xF0, 0x80, 0x80, 0x80, 0xF0]
  ++ [0xE0, 0x90, 0x90, 0x90, 0xE0]
  ++ [0xF0, 0x80, 0xF0, 0x80, 0xF0]
  ++ [0xF0, 0x80, 0xF0, 0x80, 0x80]

end Sys2Proof.Machine
end

