-- ==== Sys2Proof/Machine/Memory.lean ====
section
/-! DEFINITION. The one address space `Mem` (20_memory.md R50–R62): reads and writes of single bytes, the canonical
form, and the bounds check. -/

namespace Sys2Proof.Machine

/-- What a byte holds until something writes it: the font at `0x050`–`0x09F`, zero elsewhere (R42, R44, R54). -/
def resetByte (a : Nat) : Byte :=
  if Config.fontBase ≤ a then fontBytes.getD (a - Config.fontBase) 0 else 0

/-- `MemRead(a, 1)` (R9). Every caller has checked the address (R58; entry 12). -/
def Memory.read (m : Memory) (a : Nat) : Byte :=
  match m with
  | [] => resetByte a
  | (k, b) :: rest => if k = a then b else Memory.read rest a

/-- `MemWrite(a, 1, b)` (R9): only the byte at `a` changes (R60). Writing a byte's reset value removes its entry,
so that equal memories are equal lists. -/
def Memory.write (m : Memory) (a : Nat) (b : Byte) : Memory :=
  match m with
  | [] => if b = resetByte a then [] else [(a, b)]
  | (k, c) :: rest =>
    if a < k then (if b = resetByte a then (k, c) :: rest else (a, b) :: (k, c) :: rest)
    else if a = k then (if b = resetByte a then rest else (a, b) :: rest)
    else (k, c) :: Memory.write rest a b

/-- Bytes written to consecutive increasing addresses, the first at `a` (R57). -/
def Memory.writeBytes (m : Memory) (a : Nat) (bytes : List Byte) : Memory :=
  match bytes with
  | [] => m
  | b :: rest => Memory.writeBytes (m.write a b) (a + 1) rest

/-- The canonical form: addresses strictly rising, every one inside the address space (R50), and no entry equal to
what an unlisted address reads as. -/
abbrev Memory.wf (m : Memory) : Prop :=
  m.Pairwise (fun p q => p.1 < q.1) ∧ ∀ c ∈ m, c.1 ≤ Config.addrMax ∧ c.2 ≠ resetByte c.1

/-- `check_range(base, count, _)` (R58): the first address above `0xFFF` if the access has one. Addresses are exact
numbers: nothing wraps at 16 bits and nothing is masked to 12. -/
def checkRange (base : Word) (count : Nat) : Option Nat :=
  if 0 < count ∧ base.toNat + count - 1 > Config.addrMax then some (max base.toNat 0x1000) else none

end Sys2Proof.Machine
end

