-- ==== Sys2Proof/Machine/Ops.lean ====
section
/-! DEFINITION. The operations the meanings share: the advance of `PC`, skips, the stack, the timers, the pixels,
and taking a fault (the core's only exception; there is no return from one but reset, 60_exceptions.md R221). -/

namespace Sys2Proof.Machine

/-! ## The program counter -/

/-- `PC <- trunc_16(pc0 + 2)`, before the handler runs (40_cycle_driver.md R104). -/
def State.advance (s : State) : State := { s with pc := s.pc + 2 }

/-- A skip: 2 more, if the condition holds (41_control_flow.md R129). -/
def State.skipIf (s : State) (c : Bool) : State := if c then { s with pc := s.pc + 2 } else s

/-! ## The stack (10_state.md R27–R30) -/

/-- `Stack[SP] <- w; SP <- SP + 1`, for `SP < 16` (R28). -/
def State.push (s : State) (w : Word) : State :=
  { s with stack := s.stack.setIfInBounds s.sp.val w, sp := s.sp + 1 }

/-- The slot a pop reads: `Stack[SP - 1]`, for `SP > 0` (R28). -/
def State.top (s : State) : Word := s.stack.getD (s.sp.val - 1) 0

/-- `SP <- SP - 1; PC <- Stack[SP]`, for `SP > 0`; the slot keeps its value (R28, R30). -/
def State.popPc (s : State) : State := { s with sp := s.sp - 1, pc := s.top }

/-! ## The timers -/

/-- Decrement by one, floored at zero (R31). -/
def tickByte (b : Byte) : Byte := if b = 0 then 0 else b - 1

/-- `tick()`: both timers (40_cycle_driver.md R106). -/
def State.tick (s : State) : State := { s with dt := tickByte s.dt, st := tickByte s.st }

/-! ## Errors (60_exceptions.md R210–R219) -/

/-- The code of an error kind (R211). -/
def ErrorKind.number : ErrorKind → Nat
  | .unknownOpcode => 1
  | .outOfBoundsAccess => 2
  | .stackOverflow => 3
  | .stackUnderflow => 4

/-- Whether the kind is fatal (R211). -/
def ErrorKind.fatal : ErrorKind → Bool
  | .unknownOpcode => false
  | .outOfBoundsAccess => true
  | .stackOverflow => true
  | .stackUnderflow => true

/-- The sub-code of an access (R211). -/
def AccessKind.number : AccessKind → Nat
  | .fetch => 0
  | .spriteRead => 1
  | .bcdWrite => 2
  | .blockStore => 3
  | .blockLoad => 4

/-- `raise Fault(code, ...)` (00_scope.md R10; R214): `s` is the state at the START of the cycle, with
`PC = pc0`. Nothing of the cycle remains but the record, and the record halts the core. -/
def State.takeFault (s : State) (code : ErrorKind) (word : Option Word) (access : Option AccessKind)
    (addr : Option Nat) : State :=
  { s with fault := some ⟨code, s.pc, word, access, addr⟩ }

/-- A stack fault of the instruction `i` (R217). -/
def State.stackFault (s : State) (code : ErrorKind) (i : Instr) : State :=
  s.takeFault code (some (encode i)) none none

/-- The instruction `i` accesses `count` bytes from `base`: the whole range is checked before anything is accessed
(20_memory.md R58). If it passes `0xFFF` the cycle that began in `s` is aborted (R213); otherwise `done` is the
handler's result. -/
def accessing (i : Instr) (access : AccessKind) (base : Word) (count : Nat) (s done : State) : Result :=
  match checkRange base count with
  | some bad => .next (s.takeFault .outOfBoundsAccess (some (encode i)) (some access) (some bad))
  | none => .next done

/-! ## The framebuffer (10_state.md R33; 43_draw.md R170–R176) -/

/-- The pixel at a row and a column. -/
def Framebuffer.pixel (fb : Framebuffer) (row : Fin 32) (col : Fin 64) : Bool := fb[row].getLsbD col.val

/-- `FB[j]` for `j = row * 64 + column` below 2048 (R33). -/
def Framebuffer.flat (fb : Framebuffer) (j : Nat) : Bool := fb.pixel (Fin.ofNat 32 (j / 64)) (Fin.ofNat 64 j)

/-- `FB[j] <- FB[j] ^ 1`. -/
def Framebuffer.flip (fb : Framebuffer) (row : Fin 32) (col : Fin 64) : Framebuffer :=
  fb.set row (fb[row] ^^^ (1#64 <<< col.val))

/-- The column a sprite's column falls on: `(V[x] + col) mod 64` (R172). -/
def wrapCol (px : Byte) (col : Nat) : Fin 64 := Fin.ofNat 64 (px.toNat + col)

/-- The row a sprite's row falls on: `(V[y] + row) mod 32` (R172). -/
def wrapRow (py : Byte) (row : Nat) : Fin 32 := Fin.ofNat 32 (py.toNat + row)

/-- The sprite bit of column `col`, the most significant bit first (R171). -/
def spriteBit (sprite : Byte) (col : Nat) : Bool := sprite.getLsbD (7 - col)

/-- One pixel of a sprite: a set bit XORs the framebuffer, and collides if the pixel was on (R170, R173). The pair
is the framebuffer and the latched collision. -/
def drawPixel (px py : Byte) (sprite : Byte) (row col : Nat) (c : Framebuffer × Bool) : Framebuffer × Bool :=
  if spriteBit sprite col then
    (c.1.flip (wrapRow py row) (wrapCol px col), c.2 || c.1.pixel (wrapRow py row) (wrapCol px col))
  else c

/-- One row of a sprite: columns 0 to 7 (R170). -/
def drawRow (px py : Byte) (sprite : Byte) (row : Nat) (c : Framebuffer × Bool) : Framebuffer × Bool :=
  (List.range 8).foldl (fun c col => drawPixel px py sprite row col c) c

/-- The `n` rows of the sprite at `base` (R170): the framebuffer after them, and whether a set pixel was turned
off. -/
def drawSprite (m : Memory) (base n : Nat) (px py : Byte) (fb : Framebuffer) : Framebuffer × Bool :=
  (List.range n).foldl (fun c row => drawRow px py (m.read (base + row)) row c) (fb, false)

/-! ## Blocks of registers (45_register_timer_memory.md R198–R200) -/

/-- The decimal digits of a byte, hundreds first (R198). -/
def bcdDigits (b : Byte) : List Byte :=
  [BitVec.ofNat 8 (b.toNat / 100), BitVec.ofNat 8 (b.toNat / 10 % 10), BitVec.ofNat 8 (b.toNat % 10)]

/-- The bytes of `V[0]`..`V[x]` (R199). -/
def State.blockBytes (s : State) (x : Reg) : List Byte :=
  (List.range (x.val + 1)).map (fun j => s.readV (blockReg j))

/-- `for j in 0..x: V[j] <- MemRead(base + j, 1)` (R200). -/
def State.loadBlock (s : State) (x : Reg) (base : Nat) : State :=
  (List.range (x.val + 1)).foldl (fun t j => t.writeV (blockReg j) (s.mem.read (base + j))) s

end Sys2Proof.Machine
end

