-- ==== Sys2Proof/Machine/Arithmetic.lean ====
section
/-! DEFINITION. The arithmetic and bitwise instructions (42_arithmetic.md). None accesses memory, changes `PC`
beyond the advance, or raises a fault. Operands are read from the state at the start of the cycle (R14). -/

namespace Sys2Proof.Machine

/-- `LD Vx,kk` (R141). -/
def execLdKk (x : Reg) (kk : Byte) (s : State) : Result :=
  .next (s.advance.writeV x kk)

/-- `ADD Vx,kk` (R142): no flag. -/
def execAddKk (x : Reg) (kk : Byte) (s : State) : Result :=
  .next (s.advance.writeV x (addResult (s.readV x) kk))

/-- `LD Vx,Vy` (R143). -/
def execLdXy (x y : Reg) (s : State) : Result :=
  .next (s.advance.writeV x (s.readV y))

/-- `OR Vx,Vy` (R144): no flag. -/
def execOrXy (x y : Reg) (s : State) : Result :=
  .next (s.advance.writeV x (s.readV x ||| s.readV y))

/-- `AND Vx,Vy` (R145): no flag. -/
def execAndXy (x y : Reg) (s : State) : Result :=
  .next (s.advance.writeV x (s.readV x &&& s.readV y))

/-- `XOR Vx,Vy` (R146): no flag. -/
def execXorXy (x y : Reg) (s : State) : Result :=
  .next (s.advance.writeV x (s.readV x ^^^ s.readV y))

/-- `ADD Vx,Vy` (R147): `VF` is the carry, written last (R152). -/
def execAddXy (x y : Reg) (s : State) : Result :=
  .next (s.advance.writeFlagged x (addResult (s.readV x) (s.readV y)) (addFlag (s.readV x) (s.readV y)))

/-- `SUB Vx,Vy` (R148): `VF` is 1 iff `Vx > Vy`. -/
def execSub (x y : Reg) (s : State) : Result :=
  .next (s.advance.writeFlagged x (subResult (s.readV x) (s.readV y)) (subFlag (s.readV x) (s.readV y)))

/-- `SHR Vx` (R149): `Vy` is not read. -/
def execShr (x : Reg) (_yIgnored : Nibble) (s : State) : Result :=
  .next (s.advance.writeFlagged x (shrResult (s.readV x)) (shrFlag (s.readV x)))

/-- `SUBN Vx,Vy` (R150): `SUB` mirrored. -/
def execSubn (x y : Reg) (s : State) : Result :=
  .next (s.advance.writeFlagged x (subResult (s.readV y) (s.readV x)) (subFlag (s.readV y) (s.readV x)))

/-- `SHL Vx` (R151): `Vy` is not read. -/
def execShl (x : Reg) (_yIgnored : Nibble) (s : State) : Result :=
  .next (s.advance.writeFlagged x (shlResult (s.readV x)) (shlFlag (s.readV x)))

/-- `RND Vx,kk` (R155): the cycle's draw, masked. One draw is consumed (40_cycle_driver.md R112; entry 1). -/
def execRnd (x : Reg) (kk : Byte) (s : State) : Result :=
  .next { s.advance.writeV x (Config.randomByte s.draws &&& kk) with draws := s.draws + 1 }

end Sys2Proof.Machine
end

