-- ==== Sys2Proof/Machine/ControlFlow.lean ====
section
/-! DEFINITION. The control-flow instructions (41_control_flow.md). A meaning takes the state at the start of the
cycle, `PC = pc0`, and answers the state after the handler, before the tick (entry 4): `s.advance` is the state the
spec's handler sees, and every operand is read from it or from `s` before anything is written (R14). -/

namespace Sys2Proof.Machine

/-- `CLS` (R120): `FB` is cleared; the `x` bits are ignored. -/
def execCls (_ignored : Nibble) (s : State) : Result :=
  .next { s.advance with fb := Vector.replicate 32 0 }

/-- `RET` (R121): `StackUnderflow` at `SP = 0`, otherwise pop into `PC`. -/
def execRet (ignored : Nibble) (s : State) : Result :=
  if s.sp = 0 then .next (s.stackFault .stackUnderflow (.ret ignored))
  else .next s.advance.popPc

/-- `JP addr` (R122). -/
def execJp (nnn : Addr) (s : State) : Result :=
  .next { s.advance with pc := zextAddr nnn }

/-- `CALL addr` (R123): `StackOverflow` at `SP = 16`, otherwise push the advanced `PC` and jump. -/
def execCall (nnn : Addr) (s : State) : Result :=
  if s.sp = 16 then .next (s.stackFault .stackOverflow (.call nnn))
  else .next { s.advance.push s.advance.pc with pc := zextAddr nnn }

/-- `JP V0,addr` (R124): the register is always `V0`; the 13-bit sum is not wrapped into memory. -/
def execJpV0 (nnn : Addr) (s : State) : Result :=
  .next { s.advance with pc := zextByte (s.readV 0) + zextAddr nnn }

/-- `SE Vx,kk` (R125). -/
def execSeKk (x : Reg) (kk : Byte) (s : State) : Result :=
  .next (s.advance.skipIf (s.readV x == kk))

/-- `SNE Vx,kk` (R126). -/
def execSneKk (x : Reg) (kk : Byte) (s : State) : Result :=
  .next (s.advance.skipIf (s.readV x != kk))

/-- `SE Vx,Vy` (R127); the low nibble is ignored (R77). -/
def execSeXy (x y : Reg) (_ignored : Nibble) (s : State) : Result :=
  .next (s.advance.skipIf (s.readV x == s.readV y))

/-- `SNE Vx,Vy` (R128); the low nibble is ignored (R77). -/
def execSneXy (x y : Reg) (_ignored : Nibble) (s : State) : Result :=
  .next (s.advance.skipIf (s.readV x != s.readV y))

end Sys2Proof.Machine
end

