-- ==== Sys2Proof/Machine/Draw.lean ====
section
/-! DEFINITION. The draw instruction (43_draw.md). -/

namespace Sys2Proof.Machine

/-- `DRW Vx,Vy,n` (R170): the coordinates and `I` are read first, the sprite's whole range is checked, and `VF`
ends as the collision. With `n = 0` nothing is read and nothing can fault (R174). -/
def execDrw (x y : Reg) (n : Nat) (s : State) : Result :=
  let drawn := drawSprite s.mem s.i.toNat n (s.readV x) (s.readV y) s.fb
  accessing (.drw x y n) .spriteRead s.i n s
    ({ s.advance with fb := drawn.1 }.writeV regVF (flagByte drawn.2))

end Sys2Proof.Machine
end

