-- ==== Sys2Proof/Machine/KeySkip.lean ====
section
/-! DEFINITION. The key skips (44_key_skip.md). `Key` is as the host left it before the cycle (R111). -/

namespace Sys2Proof.Machine

/-- `SKP Vx` (R180). -/
def execSkp (x : Reg) (s : State) : Result :=
  .next (s.advance.skipIf (s.keyHeld (keyOf (s.readV x))))

/-- `SKNP Vx` (R181). -/
def execSknp (x : Reg) (s : State) : Result :=
  .next (s.advance.skipIf (!s.keyHeld (keyOf (s.readV x))))

end Sys2Proof.Machine
end

