-- ==== Sys2Proof/Machine/Registers.lean ====
section
/-! DEFINITION. The index, timer, key-wait and memory-block instructions (45_register_timer_memory.md). -/

namespace Sys2Proof.Machine

/-- `LD I,addr` (R190). -/
def execLdI (nnn : Addr) (s : State) : Result :=
  .next { s.advance with i := zextAddr nnn }

/-- `LD Vx,DT` (R191): `DT` before this cycle's tick. -/
def execLdXDt (x : Reg) (s : State) : Result :=
  .next (s.advance.writeV x s.dt)

/-- `LD Vx,K` (R192): a held key resolves it at once, the lowest index winning (R193); with none held the core
waits. -/
def execLdXK (x : Reg) (s : State) : Result :=
  match s.lowestKey with
  | some k => .next (s.advance.writeV x (keyByte k))
  | none => .next { s.advance with wait := some x }

/-- `LD DT,Vx` (R194): the tick of the same cycle follows (R247). -/
def execLdDtX (x : Reg) (s : State) : Result :=
  .next { s.advance with dt := s.readV x }

/-- `LD ST,Vx` (R195): the tick of the same cycle follows (R247). -/
def execLdStX (x : Reg) (s : State) : Result :=
  .next { s.advance with st := s.readV x }

/-- `ADD I,Vx` (R196): 16-bit wrap, no flag, not masked to 12 bits. -/
def execAddIX (x : Reg) (s : State) : Result :=
  .next { s.advance with i := s.i + zextByte (s.readV x) }

/-- `LD F,Vx` (R197): `V[x]` is not masked and no memory is accessed. -/
def execLdFX (x : Reg) (s : State) : Result :=
  .next { s.advance with i := BitVec.ofNat 16 (Config.fontBase + 5 * (s.readV x).toNat) }

/-- `LD B,Vx` (R198): three digits at `I`, `I+1`, `I+2`; `I` is unchanged (R201). -/
def execLdBX (x : Reg) (s : State) : Result :=
  accessing (.ldBX x) .bcdWrite s.i 3 s
    { s.advance with mem := s.mem.writeBytes s.i.toNat (bcdDigits (s.readV x)) }

/-- `LD [I],Vx` (R199): `V[0]`..`V[x]` at `I`..`I+x`; `I` is unchanged (R201). -/
def execLdMemX (x : Reg) (s : State) : Result :=
  accessing (.ldMemX x) .blockStore s.i (x.val + 1) s
    { s.advance with mem := s.mem.writeBytes s.i.toNat (s.blockBytes x) }

/-- `LD Vx,[I]` (R200): `V[0]`..`V[x]` from `I`..`I+x`; `I` is unchanged (R201). -/
def execLdXMem (x : Reg) (s : State) : Result :=
  accessing (.ldXMem x) .blockLoad s.i (x.val + 1) s
    (s.advance.loadBlock x s.i.toNat)

end Sys2Proof.Machine
end

