-- ==== Sys2Proof/Machine/Dispatch.lean ====
section
/-! DEFINITION. One handler per instruction (30_encoding.md R78; 40_cycle_driver.md R105). -/

namespace Sys2Proof.Machine

/-- The handler of an instruction, run on the state at the start of the cycle (`PC = pc0`). -/
def exec (i : Instr) (s : State) : Host.Outcome State Fault Refusal :=
  match i with
  | .cls ignored => Sys2Proof.Machine.execCls ignored s
  | .ret ignored => Sys2Proof.Machine.execRet ignored s
  | .jp nnn => Sys2Proof.Machine.execJp nnn s
  | .call nnn => Sys2Proof.Machine.execCall nnn s
  | .seKk x kk => Sys2Proof.Machine.execSeKk x kk s
  | .sneKk x kk => Sys2Proof.Machine.execSneKk x kk s
  | .seXy x y ignored => Sys2Proof.Machine.execSeXy x y ignored s
  | .ldKk x kk => Sys2Proof.Machine.execLdKk x kk s
  | .addKk x kk => Sys2Proof.Machine.execAddKk x kk s
  | .ldXy x y => Sys2Proof.Machine.execLdXy x y s
  | .orXy x y => Sys2Proof.Machine.execOrXy x y s
  | .andXy x y => Sys2Proof.Machine.execAndXy x y s
  | .xorXy x y => Sys2Proof.Machine.execXorXy x y s
  | .addXy x y => Sys2Proof.Machine.execAddXy x y s
  | .sub x y => Sys2Proof.Machine.execSub x y s
  | .shr x yIgnored => Sys2Proof.Machine.execShr x yIgnored s
  | .subn x y => Sys2Proof.Machine.execSubn x y s
  | .shl x yIgnored => Sys2Proof.Machine.execShl x yIgnored s
  | .sneXy x y ignored => Sys2Proof.Machine.execSneXy x y ignored s
  | .ldI nnn => Sys2Proof.Machine.execLdI nnn s
  | .jpV0 nnn => Sys2Proof.Machine.execJpV0 nnn s
  | .rnd x kk => Sys2Proof.Machine.execRnd x kk s
  | .drw x y n => Sys2Proof.Machine.execDrw x y n s
  | .skp x => Sys2Proof.Machine.execSkp x s
  | .sknp x => Sys2Proof.Machine.execSknp x s
  | .ldXDt x => Sys2Proof.Machine.execLdXDt x s
  | .ldXK x => Sys2Proof.Machine.execLdXK x s
  | .ldDtX x => Sys2Proof.Machine.execLdDtX x s
  | .ldStX x => Sys2Proof.Machine.execLdStX x s
  | .addIX x => Sys2Proof.Machine.execAddIX x s
  | .ldFX x => Sys2Proof.Machine.execLdFX x s
  | .ldBX x => Sys2Proof.Machine.execLdBX x s
  | .ldMemX x => Sys2Proof.Machine.execLdMemX x s
  | .ldXMem x => Sys2Proof.Machine.execLdXMem x s

end Sys2Proof.Machine
end

