-- ==== Sys2Proof/Machine/Cycle.lean ====
section
/-! DEFINITION. The cycle driver (40_cycle_driver.md R100–R112): the halted and waiting checks, the fetch, the
dispatch, the tick, and the cycle's diagnostic output (60_exceptions.md R216). -/

namespace Sys2Proof.Machine

/-- The word at `PC`: two bytes, high byte first, from memory as it is now (R53, R66, R103). -/
def State.fetchWord (s : State) : Word :=
  wordOfBytes (s.mem.read s.pc.toNat) (s.mem.read (s.pc.toNat + 1))

/-- What one cycle does, decided by the state it begins in (R100). -/
inductive Phase where
  /-- `Fault ≠ None` (R101). -/
  | halted
  /-- `Wait = Some(r)` (R102). -/
  | waiting (r : Reg)
  /-- `PC` or `PC + 1` is above `0xFFF`, the first such address being `bad` (R103). -/
  | fetchFault (bad : Nat)
  /-- The word has no handler (R105, R212). -/
  | unknown (w : Word)
  /-- The word is an instruction, and its handler runs (R105). -/
  | running (i : Instr)
deriving DecidableEq, Repr

/-- The checks of R100 in their order: halted, waiting, the range of the fetch, decode. -/
def State.phase (s : State) : Phase :=
  match s.fault with
  | some _ => .halted
  | none =>
    match s.wait with
    | some r => .waiting r
    | none =>
      match checkRange s.pc 2 with
      | some bad => .fetchFault bad
      | none =>
        match decodeWord s.fetchWord with
        | none => .unknown s.fetchWord
        | some i => .running i

/-- A waiting cycle (R102): a held key resolves the wait and nothing is fetched; the timers tick either way. -/
def State.waitCycle (s : State) (r : Reg) : State :=
  match s.lowestKey with
  | some k => { s.writeV r (keyByte k) with wait := none }.tick
  | none => s.tick

/-- The end of a cycle that ran a handler: the tick, unless the handler aborted the cycle (R106). -/
def endCycle : Result → Result
  | .next t => .next (if t.fault.isSome then t else t.tick)
  | .fault f => .fault f
  | .refused r => .refused r

/-- One cycle (R100). -/
def cycle (s : State) : Result :=
  match s.phase with
  | .halted => .next s
  | .waiting r => .next (s.waitCycle r)
  | .fetchFault bad => .next (s.takeFault .outOfBoundsAccess none (some .fetch) (some bad))
  | .unknown _ => .next s.advance.tick
  | .running i => endCycle (exec i s)

/-- A diagnostic record (R216): the fields of the fault record and a `fatal` bit. -/
structure Diagnostic where
  record : FaultRecord
  fatal : Bool
deriving DecidableEq, Repr

/-- A diagnostic with the `fatal` bit its kind has (R211, R216). -/
def diagnosticOf (r : FaultRecord) : Diagnostic := ⟨r, r.code.fatal⟩

/-- The fault record a cycle's result latched. -/
def latched : Result → Option FaultRecord
  | .next t => t.fault
  | .fault _ => none
  | .refused _ => none

/-- The diagnostic the cycle that begins in `s` emits (R107, R216): an output of the cycle, not state (R41; entry
5). Halted and waiting cycles emit none; an unknown opcode is reported; a cycle that raised reports its fault. -/
def diagnostic (s : State) : Option Diagnostic :=
  match s.phase with
  | .halted => none
  | .waiting _ => none
  | .unknown w => some (diagnosticOf ⟨.unknownOpcode, s.pc, some w, none, none⟩)
  | .fetchFault _ => (latched (cycle s)).map diagnosticOf
  | .running _ => (latched (cycle s)).map diagnosticOf

end Sys2Proof.Machine
end

