-- ==== Sys2Proof/Machine/Ports.lean ====
section
/-! DEFINITION. The host's side of the core (60_exceptions.md R227–R231; 70_reset_and_hazards.md R240, R243): what
the host may do between cycles, and what it may read. The port `cycle` is `step`, `rnd` is `Config.randomByte`, and
`diag` is `diagnostic`. -/

namespace Sys2Proof.Machine

/-- The port `reset`, at any cycle boundary (R240). The count of draws is the model's own and goes on, so that the
draws after a reset are not those before it (entry 2). -/
def State.hostReset (s : State) : State := { State.reset with draws := s.draws }

/-- The port `load`, between reset and the first cycle (R243): a program longer than `PROGRAM_MAX_LEN` is refused as
a whole. -/
def State.load (s : State) (bytes : List Byte) : Option State :=
  if bytes.length ≤ Config.programMaxLen then
    some { s with mem := s.mem.writeBytes Config.programBase bytes }
  else none

/-- The port `set_key`, between cycles (R227). -/
def State.setKey (s : State) (k : KeyIndex) (held : Bool) : State := { s with key := s.key.set k held }

/-- The port `sound_on` (R229). -/
def State.soundOn (s : State) : Bool := s.st != 0

/-- The port `fb`: the pixel `FB[j]` (R228, R231). -/
def State.fbView (s : State) (j : Nat) : Bool := s.fb.flat j

/-- `PC` where a cycle can fetch from it: itself, or the entry point if a fetch there would fault (R103). -/
def State.fetchablePc (s : State) : Word :=
  match checkRange s.pc 2 with
  | none => s.pc
  | some _ => Config.resetPc

/-- `s` with the word `w` stored where the next cycle fetches, neither halted nor waiting (entry 9). -/
def State.placeWord (s : State) (w : Word) : State :=
  { s with
    mem := s.mem.writeBytes s.fetchablePc.toNat [highByte w, lowByte w]
    pc := s.fetchablePc
    wait := none
    fault := none }

end Sys2Proof.Machine
end

