-- ==== Sys2Proof/Machine/Step.lean ====
section
/-! DEFINITION. One step of the machine is one cycle of the driver (40_cycle_driver.md R100, R108). -/

namespace Sys2Proof.Machine

/-- One step: one invocation of the cycle driver (R100). -/
def step : State → Host.Outcome State Fault Refusal := cycle

/-- `s` with the instruction whose `nbits` low bits are those of `w`, the rest 0, where `step` fetches next: the
host's load of one instruction (entry 9). -/
def State.withFetchWord (s : State) (nbits w : Nat) : State :=
  s.placeWord (BitVec.ofNat 16 (w % 2 ^ nbits))

end Sys2Proof.Machine
end

