-- ==== Sys2Proof/Safety.lean ====
section
/-! DEFINITION. What counts as a legal state, a reachable state and an end of a run, in the terms the statements
use (10_state.md R29, R36; 40_cycle_driver.md R110; 60_exceptions.md R215; 70_reset_and_hazards.md R244, R254). -/

namespace Sys2Proof.Machine

/-- A record the core can latch (R211, R215): `UnknownOpcode` is never latched; `OutOfBoundsAccess` names its access
and an address above `0xFFF`, and lacks the word exactly for a fetch; the stack faults have a word and nothing
else. -/
def FaultRecord.legal (r : FaultRecord) : Prop :=
  match r.code with
  | .unknownOpcode => False
  | .outOfBoundsAccess =>
    ∃ k a, r.access = some k ∧ r.addr = some a ∧ 0xFFF < a ∧ (r.word = none ↔ k = .fetch)
  | .stackOverflow => r.word ≠ none ∧ r.access = none ∧ r.addr = none
  | .stackUnderflow => r.word ≠ none ∧ r.access = none ∧ r.addr = none

/-- The invariant of the core. That `SP` is in `[0, 16]` (R29) is in its type. -/
structure State.Inv (s : State) : Prop where
  /-- Memory is in canonical form, inside the address space. -/
  mem_wf : s.mem.wf
  /-- No `PC` exceeds `0x10FE`, the largest `V[0] + nnn` (R110). -/
  pc_le : s.pc.toNat ≤ 0x10FE
  /-- No return address exceeds `0x1000`, one past the last fetchable instruction's end (R123). -/
  stack_le : ∀ j : Fin 16, s.stack[j].toNat ≤ 0x1000
  /-- A halted core is not waiting (R218), stays at the faulting instruction (R219), and its record is legal. -/
  halted : ∀ r, s.fault = some r → s.wait = none ∧ r.pc = s.pc ∧ r.legal

/-- The states the core and its host can reach (R244): a program is loaded after a reset and before the first
cycle; then cycles and key writes alternate as the host likes. -/
inductive Reachable : State → Prop where
  | boot {bytes t} : State.reset.load bytes = some t → Reachable t
  | reboot {s bytes t} : Reachable s → s.hostReset.load bytes = some t → Reachable t
  | cycle {s t} : Reachable s → step s = .next t → Reachable t
  | setKey {s k held} : Reachable s → Reachable (s.setKey k held)

/-- The end (a) of a run: the core is halted (R254). -/
def Faulted (s : State) : Prop := s.fault ≠ none

/-- The end (b) of a run: neither waiting nor halted, and the word at `PC` jumps to `PC` (R254). -/
def SelfLoop (s : State) : Prop :=
  s.wait = none ∧ s.fault = none ∧ s.pc.toNat + 1 ≤ Config.addrMax ∧
    ∃ nnn : Addr, decodeWord s.fetchWord = some (.jp nnn) ∧ nnn.toNat = s.pc.toNat

/-- What the host can observe at a cycle boundary (R231): the framebuffer, `ST` and the fault record. -/
def Observation (s : State) : Framebuffer × Byte × Option FaultRecord := (s.fb, s.st, s.fault)

end Sys2Proof.Machine
end

