-- ==== Sys2Proof/Certificates/Slice0/Obligations.lean ====
section
/-! DEFINITION. The statements for the provers. Each docstring names the rule of spec/ it formalises. A statement
about an instruction has, where the rule gives an encoding, a first clause that says which words are the instruction;
its other clauses say what `exec` answers on the state at the start of the cycle (`PC = pc0`), before the tick. -/

namespace Sys2Proof.Claims

open Sys2Proof.Machine

/-- Every word with `w & mask = value` (30_encoding.md R82) is the instruction `f w`. -/
def WordsDecodeTo (mask value : Word) (f : Word → Instr) : Prop :=
  ∀ w : Word, w &&& mask = value → decodeWord w = some (f w)

/-- Every register outside `P` holds what it held. -/
def KeepsRegisters (s t : State) (P : Reg → Prop) : Prop := ∀ r, ¬ P r → t.readV r = s.readV r

/-- The cycle that begins in `s` fetches and runs the instruction `i` (40_cycle_driver.md R100–R105). -/
def Fetches (s : State) (i : Instr) : Prop :=
  s.fault = none ∧ s.wait = none ∧ s.pc.toNat + 1 ≤ 0xFFF ∧ decodeWord s.fetchWord = some i

/-- The state `s` with the fault record of an access latched (60_exceptions.md R211, R214, R215). -/
def AccessFault (s : State) (word : Option Word) (access : AccessKind) (addr : Nat) : State :=
  { s with fault := some ⟨.outOfBoundsAccess, s.pc, word, some access, some addr⟩ }

/-- The state `s` with the record of a stack fault latched (60_exceptions.md R211, R217). -/
def StackFault (s : State) (code : ErrorKind) (word : Word) : State :=
  { s with fault := some ⟨code, s.pc, some word, none, none⟩ }

/-- The word `w` has the leading nibble `op`. -/
def OpIs (w : Word) (op : Nat) : Prop := w.toNat / 0x1000 = op

/-- The pixel at `row` and `col` is under a set bit of the `n`-row sprite at `I`, drawn from the column `px` and the
row `py`: sprite column `c` is bit `7 - c` (43_draw.md R171) and both coordinates wrap (R172). -/
def SpriteCovers (s : State) (n px py row col : Nat) : Prop :=
  ∃ r c, r < n ∧ c < 8 ∧ (s.mem.read (s.i.toNat + r)).getLsbD (7 - c) = true ∧
    (py + r) % 32 = row ∧ (px + c) % 64 = col

/-- Which general registers an instruction may write (10_state.md R24, the column "writes"). -/
def writesReg (r : Reg) : Instr → Prop
  | .ldKk x _ | .addKk x _ | .ldXy x _ | .orXy x _ | .andXy x _ | .xorXy x _ | .rnd x _ | .ldXDt x | .ldXK x => r = x
  | .addXy x _ | .sub x _ | .subn x _ | .shr x _ | .shl x _ => r = x ∨ r = 15
  | .drw _ _ _ => r = 15
  | .ldXMem x => r ≤ x
  | .cls _ | .ret _ | .jp _ | .call _ | .seKk _ _ | .sneKk _ _ | .seXy _ _ _ | .sneXy _ _ _ | .ldI _ | .jpV0 _
  | .skp _ | .sknp _ | .ldDtX _ | .ldStX _ | .addIX _ | .ldFX _ | .ldBX _ | .ldMemX _ => False

/-- The first address and the number of the bytes an instruction stores to (20_memory.md R51). -/
def storedBytes (s : State) : Instr → Nat × Nat
  | .ldBX _ => (s.i.toNat, 3)
  | .ldMemX x => (s.i.toNat, x.val + 1)
  | .cls _ | .ret _ | .jp _ | .call _ | .seKk _ _ | .sneKk _ _ | .seXy _ _ _ | .ldKk _ _ | .addKk _ _
  | .ldXy _ _ | .orXy _ _ | .andXy _ _ | .xorXy _ _ | .addXy _ _ | .sub _ _ | .shr _ _ | .subn _ _
  | .shl _ _ | .sneXy _ _ _ | .ldI _ | .jpV0 _ | .rnd _ _ | .drw _ _ _ | .skp _ | .sknp _ | .ldXDt _ | .ldXK _
  | .ldDtX _ | .ldStX _ | .addIX _ | .ldFX _ | .ldXMem _ => (0, 0)

/-- The instructions that jump or skip (40_cycle_driver.md R104). -/
def jumpsOrSkips : Instr → Prop
  | .ret _ | .jp _ | .call _ | .jpV0 _ | .seKk _ _ | .sneKk _ _ | .seXy _ _ _ | .sneXy _ _ _ | .skp _ | .sknp _ => True
  | .cls _ | .ldKk _ _ | .addKk _ _ | .ldXy _ _ | .orXy _ _ | .andXy _ _ | .xorXy _ _ | .addXy _ _ | .sub _ _
  | .shr _ _ | .subn _ _ | .shl _ _ | .ldI _ | .rnd _ _ | .drw _ _ _ | .ldXDt _ | .ldXK _ | .ldDtX _ | .ldStX _
  | .addIX _ | .ldFX _ | .ldBX _ | .ldMemX _ | .ldXMem _ => False

/-- When the cycle of a core that is neither halted nor waiting raises (60_exceptions.md R213, R217). -/
def Raises (s : State) : Prop :=
  0xFFF ≤ s.pc.toNat ∨
  s.pc.toNat < 0xFFF ∧
    ((∃ g, decodeWord s.fetchWord = some (.ret g)) ∧ s.sp.val = 0 ∨
     (∃ nnn, decodeWord s.fetchWord = some (.call nnn)) ∧ s.sp.val = 16 ∨
     (∃ x y n, decodeWord s.fetchWord = some (.drw x y n) ∧ 0 < n ∧ s.i.toNat + n - 1 > 0xFFF) ∨
     (∃ x, decodeWord s.fetchWord = some (.ldBX x)) ∧ s.i.toNat + 2 > 0xFFF ∨
     (∃ x, (decodeWord s.fetchWord = some (.ldMemX x) ∨ decodeWord s.fetchWord = some (.ldXMem x)) ∧
        s.i.toNat + x.val > 0xFFF))

/-- The conventional font, one row a glyph (20_memory.md R55). -/
def glyphs : List (List Byte) :=
  [[0xF0, 0x90, 0x90, 0x90, 0xF0], [0x20, 0x60, 0x20, 0x20, 0x70], [0xF0, 0x10, 0xF0, 0x80, 0xF0],
   [0xF0, 0x10, 0xF0, 0x10, 0xF0], [0x90, 0x90, 0xF0, 0x10, 0x10], [0xF0, 0x80, 0xF0, 0x10, 0xF0],
   [0xF0, 0x80, 0xF0, 0x90, 0xF0], [0xF0, 0x10, 0x20, 0x40, 0x40]]
  ++ [[0xF0, 0x90, 0xF0, 0x90, 0xF0], [0xF0, 0x90, 0xF0, 0x10, 0xF0], [0xF0, 0x90, 0xF0, 0x90, 0x90],
   [0xE0, 0x90, 0xE0, 0x90, 0xE0], [0xF0, 0x80, 0x80, 0x80, 0xF0], [0xE0, 0x90, 0x90, 0x90, 0xE0],
   [0xF0, 0x80, 0xF0, 0x80, 0xF0], [0xF0, 0x80, 0xF0, 0x80, 0x80]]

end Sys2Proof.Claims

open Sys2Proof Sys2Proof.Machine Sys2Proof.Claims

/-! ## Control flow (41_control_flow.md) -/

/-- R120: `CLS` turns every pixel off and changes nothing else but `PC`. -/
def Obligations.ClsTurnsEveryPixelOff : Prop :=
  WordsDecodeTo 0xF0FF 0x00E0 (fun w => .cls (xField w)) ∧
  ∀ ignored s, ∃ t, exec (.cls ignored) s = .next t ∧
    (∀ j < 2048, t.fbView j = false) ∧ t = { s with pc := s.pc + 2, fb := t.fb }

/-- R121: `RET` pops the return address; at `SP = 0` it faults with `StackUnderflow` and changes nothing else. -/
def Obligations.RetPopsReturnAddressOrUnderflows : Prop :=
  WordsDecodeTo 0xF0FF 0x00EE (fun w => .ret (xField w)) ∧
  ∀ ignored s,
    (s.sp.val ≠ 0 → ∃ t, exec (.ret ignored) s = .next t ∧ t.sp.val = s.sp.val - 1 ∧
      s.stack[t.sp.val]? = some t.pc ∧ t = { s with sp := t.sp, pc := t.pc }) ∧
    (s.sp.val = 0 → exec (.ret ignored) s = .next (StackFault s .stackUnderflow (encode (.ret ignored))))

/-- R123: `CALL` pushes `pc0 + 2` and jumps; at `SP = 16` it faults with `StackOverflow` and changes nothing else. -/
def Obligations.CallPushesReturnAddressOrOverflows : Prop :=
  WordsDecodeTo 0xF000 0x2000 (fun w => .call (nnnField w)) ∧
  ∀ nnn s,
    (s.sp.val < 16 → ∃ t, exec (.call nnn) s = .next t ∧ t.sp.val = s.sp.val + 1 ∧
      t.stack[s.sp.val]? = some (s.pc + 2) ∧ (∀ j, j ≠ s.sp.val → t.stack[j]? = s.stack[j]?) ∧
      t.pc.toNat = nnn.toNat ∧ t = { s with sp := t.sp, stack := t.stack, pc := t.pc }) ∧
    (s.sp.val = 16 → exec (.call nnn) s = .next (StackFault s .stackOverflow (encode (.call nnn))))

/-- R122, R124: `JP addr` jumps to `nnn`, `JP V0,addr` to `V0 + nnn`, a sum that is never wrapped. -/
def Obligations.JumpsReachTheirTargets : Prop :=
  WordsDecodeTo 0xF000 0x1000 (fun w => .jp (nnnField w)) ∧
  WordsDecodeTo 0xF000 0xB000 (fun w => .jpV0 (nnnField w)) ∧
  ∀ nnn s,
    (∃ t, exec (.jp nnn) s = .next t ∧ t.pc.toNat = nnn.toNat ∧ t = { s with pc := t.pc }) ∧
    (∃ t, exec (.jpV0 nnn) s = .next t ∧ t.pc.toNat = (s.readV 0).toNat + nnn.toNat ∧ t = { s with pc := t.pc })

/-- R125, R126: `SE Vx,kk` skips on equality, `SNE Vx,kk` on inequality; nothing but `PC` changes. -/
def Obligations.ImmediateSkipsCompareBytes : Prop :=
  WordsDecodeTo 0xF000 0x3000 (fun w => .seKk (regOf (xField w)) (kkField w)) ∧
  WordsDecodeTo 0xF000 0x4000 (fun w => .sneKk (regOf (xField w)) (kkField w)) ∧
  ∀ x kk s,
    exec (.seKk x kk) s = .next { s with pc := if s.readV x = kk then s.pc + 4 else s.pc + 2 } ∧
    exec (.sneKk x kk) s = .next { s with pc := if s.readV x = kk then s.pc + 2 else s.pc + 4 }

/-- R127, R128: `SE Vx,Vy` skips on equality, `SNE Vx,Vy` on inequality, whatever the low nibble. -/
def Obligations.RegisterSkipsCompareBytes : Prop :=
  WordsDecodeTo 0xF000 0x5000 (fun w => .seXy (regOf (xField w)) (regOf (yField w)) (nField w)) ∧
  WordsDecodeTo 0xF000 0x9000 (fun w => .sneXy (regOf (xField w)) (regOf (yField w)) (nField w)) ∧
  ∀ x y ignored s,
    exec (.seXy x y ignored) s = .next { s with pc := if s.readV x = s.readV y then s.pc + 4 else s.pc + 2 } ∧
    exec (.sneXy x y ignored) s = .next { s with pc := if s.readV x = s.readV y then s.pc + 2 else s.pc + 4 }

/-- R121, R123, R28: a `CALL` and the `RET` at its target resume at `pc0 + 2` with the same depth; only the slot the
call wrote differs. -/
def Obligations.CallThenReturnResumes : Prop :=
  ∀ nnn ignored s, s.sp.val < 16 → ∃ t u, exec (.call nnn) s = .next t ∧ exec (.ret ignored) t = .next u ∧
    u = { s with pc := s.pc + 2, stack := u.stack } ∧ ∀ j, j ≠ s.sp.val → u.stack[j]? = s.stack[j]?

/-! ## Arithmetic (42_arithmetic.md) -/

/-- R141, R143: `LD Vx,kk` and `LD Vx,Vy` write their one register and no flag. -/
def Obligations.LoadsWriteOneRegister : Prop :=
  WordsDecodeTo 0xF000 0x6000 (fun w => .ldKk (regOf (xField w)) (kkField w)) ∧
  WordsDecodeTo 0xF00F 0x8000 (fun w => .ldXy (regOf (xField w)) (regOf (yField w))) ∧
  ∀ x y kk s,
    (∃ t, exec (.ldKk x kk) s = .next t ∧ t.readV x = kk ∧ KeepsRegisters s t (· = x) ∧
      t = { s with pc := s.pc + 2, v := t.v }) ∧
    (∃ t, exec (.ldXy x y) s = .next t ∧ t.readV x = s.readV y ∧ KeepsRegisters s t (· = x) ∧
      t = { s with pc := s.pc + 2, v := t.v })

/-- R142: `ADD Vx,kk` wraps modulo 256 and writes no carry. -/
def Obligations.AddImmediateWrapsWithoutCarry : Prop :=
  WordsDecodeTo 0xF000 0x7000 (fun w => .addKk (regOf (xField w)) (kkField w)) ∧
  ∀ x kk s, ∃ t, exec (.addKk x kk) s = .next t ∧
    (t.readV x).toNat = ((s.readV x).toNat + kk.toNat) % 256 ∧ KeepsRegisters s t (· = x) ∧
    t = { s with pc := s.pc + 2, v := t.v }

/-- R144, R145, R146: the bitwise operations write `Vx` bit by bit and leave `VF` alone unless it is `Vx`. -/
def Obligations.BitwiseOpsLeaveTheFlag : Prop :=
  WordsDecodeTo 0xF00F 0x8001 (fun w => .orXy (regOf (xField w)) (regOf (yField w))) ∧
  WordsDecodeTo 0xF00F 0x8002 (fun w => .andXy (regOf (xField w)) (regOf (yField w))) ∧
  WordsDecodeTo 0xF00F 0x8003 (fun w => .xorXy (regOf (xField w)) (regOf (yField w))) ∧
  ∀ x y s,
    (∃ t, exec (.orXy x y) s = .next t ∧
      (∀ b, (t.readV x).getLsbD b = ((s.readV x).getLsbD b || (s.readV y).getLsbD b)) ∧
      KeepsRegisters s t (· = x) ∧ t = { s with pc := s.pc + 2, v := t.v }) ∧
    (∃ t, exec (.andXy x y) s = .next t ∧
      (∀ b, (t.readV x).getLsbD b = ((s.readV x).getLsbD b && (s.readV y).getLsbD b)) ∧
      KeepsRegisters s t (· = x) ∧ t = { s with pc := s.pc + 2, v := t.v }) ∧
    (∃ t, exec (.xorXy x y) s = .next t ∧
      (∀ b, (t.readV x).getLsbD b = ((s.readV x).getLsbD b ^^ (s.readV y).getLsbD b)) ∧
      KeepsRegisters s t (· = x) ∧ t = { s with pc := s.pc + 2, v := t.v })

/-- R147 (the flag last: R152): `ADD Vx,Vy` leaves the low 8 bits in `Vx` and the carry in `VF`; when `x = F` the
carry is what remains. -/
def Obligations.AddLeavesSumAndCarry : Prop :=
  WordsDecodeTo 0xF00F 0x8004 (fun w => .addXy (regOf (xField w)) (regOf (yField w))) ∧
  ∀ x y s, ∃ t, exec (.addXy x y) s = .next t ∧
    (x ≠ 15 → (t.readV x).toNat = ((s.readV x).toNat + (s.readV y).toNat) % 256) ∧
    (t.readV 15).toNat = (if (s.readV x).toNat + (s.readV y).toNat > 255 then 1 else 0) ∧
    KeepsRegisters s t (fun r => r = x ∨ r = 15) ∧ t = { s with pc := s.pc + 2, v := t.v }

/-- R148, R150 (the flag last: R152): `SUB` and `SUBN` wrap modulo 256, and `VF` is 1 exactly when the minuend is
strictly greater, so 0 at equality (the spec's decision D16). -/
def Obligations.SubtractionsSetStrictFlag : Prop :=
  WordsDecodeTo 0xF00F 0x8005 (fun w => .sub (regOf (xField w)) (regOf (yField w))) ∧
  WordsDecodeTo 0xF00F 0x8007 (fun w => .subn (regOf (xField w)) (regOf (yField w))) ∧
  ∀ x y s,
    (∃ t, exec (.sub x y) s = .next t ∧
      (x ≠ 15 → ((t.readV x).toNat : Int) = ((s.readV x).toNat - (s.readV y).toNat : Int) % 256) ∧
      (t.readV 15).toNat = (if (s.readV x).toNat > (s.readV y).toNat then 1 else 0) ∧
      KeepsRegisters s t (fun r => r = x ∨ r = 15) ∧ t = { s with pc := s.pc + 2, v := t.v }) ∧
    (∃ t, exec (.subn x y) s = .next t ∧
      (x ≠ 15 → ((t.readV x).toNat : Int) = ((s.readV y).toNat - (s.readV x).toNat : Int) % 256) ∧
      (t.readV 15).toNat = (if (s.readV y).toNat > (s.readV x).toNat then 1 else 0) ∧
      KeepsRegisters s t (fun r => r = x ∨ r = 15) ∧ t = { s with pc := s.pc + 2, v := t.v })

/-- R149, R151 (the flag last: R152): `SHR` halves, `SHL` doubles modulo 256, and `VF` is the bit shifted out; the
`y` field is ignored. -/
def Obligations.ShiftsReportTheBitOut : Prop :=
  WordsDecodeTo 0xF00F 0x8006 (fun w => .shr (regOf (xField w)) (yField w)) ∧
  WordsDecodeTo 0xF00F 0x800E (fun w => .shl (regOf (xField w)) (yField w)) ∧
  ∀ x yIgnored s,
    (∃ t, exec (.shr x yIgnored) s = .next t ∧ (x ≠ 15 → (t.readV x).toNat = (s.readV x).toNat / 2) ∧
      (t.readV 15).toNat = (s.readV x).toNat % 2 ∧
      KeepsRegisters s t (fun r => r = x ∨ r = 15) ∧ t = { s with pc := s.pc + 2, v := t.v }) ∧
    (∃ t, exec (.shl x yIgnored) s = .next t ∧ (x ≠ 15 → (t.readV x).toNat = 2 * (s.readV x).toNat % 256) ∧
      (t.readV 15).toNat = (s.readV x).toNat / 128 ∧
      KeepsRegisters s t (fun r => r = x ∨ r = 15) ∧ t = { s with pc := s.pc + 2, v := t.v })

/-- R155: `RND Vx,kk` writes the cycle's draw masked by `kk`. The draw is a free value (entry 1): the statement holds
whatever byte it is, and no bit outside `kk` is ever set. That the draws are numbered by `draws` is the model's own. -/
def Obligations.RndMasksTheDraw : Prop :=
  WordsDecodeTo 0xF000 0xC000 (fun w => .rnd (regOf (xField w)) (kkField w)) ∧
  ∀ x kk s, ∃ t, exec (.rnd x kk) s = .next t ∧
    (∀ b, (t.readV x).getLsbD b = ((Config.randomByte s.draws).getLsbD b && kk.getLsbD b)) ∧
    KeepsRegisters s t (· = x) ∧ t = { s with pc := s.pc + 2, v := t.v, draws := s.draws + 1 }

/-! ## Draw (43_draw.md) -/

/-- R170 (with R171, R172, R173): a `DRW` whose sprite lies in memory flips exactly the pixels under the sprite's set
bits, wrapping both axes, and leaves 1 in `VF` exactly when one of them was on; the coordinates are the old `Vx`, `Vy`.
A sprite that passes `0xFFF` faults and changes nothing else; a sprite of no rows cannot fault. -/
def Obligations.DrwFlipsExactlyTheCoveredPixels : Prop :=
  WordsDecodeTo 0xF000 0xD000 (fun w => .drw (regOf (xField w)) (regOf (yField w)) (nField w).toNat) ∧
  ∀ x y n s, n ≤ 15 →
    (n = 0 ∨ s.i.toNat + n - 1 ≤ 0xFFF → ∃ t, exec (.drw x y n) s = .next t ∧
      (∀ row < 32, ∀ col < 64,
        (SpriteCovers s n (s.readV x).toNat (s.readV y).toNat row col →
          t.fbView (row * 64 + col) = !s.fbView (row * 64 + col)) ∧
        (¬ SpriteCovers s n (s.readV x).toNat (s.readV y).toNat row col →
          t.fbView (row * 64 + col) = s.fbView (row * 64 + col))) ∧
      ((∃ row < 32, ∃ col < 64, SpriteCovers s n (s.readV x).toNat (s.readV y).toNat row col ∧
          s.fbView (row * 64 + col) = true) → t.readV 15 = 1) ∧
      ((∀ row < 32, ∀ col < 64, SpriteCovers s n (s.readV x).toNat (s.readV y).toNat row col →
          s.fbView (row * 64 + col) = false) → t.readV 15 = 0) ∧
      KeepsRegisters s t (· = 15) ∧ t = { s with pc := s.pc + 2, v := t.v, fb := t.fb }) ∧
    (0 < n → s.i.toNat + n - 1 > 0xFFF → exec (.drw x y n) s =
      .next (AccessFault s (some (encode (.drw x y n))) .spriteRead (max s.i.toNat 0x1000)))

/-- 95_test_vectors.md E12, from R170 and R173: drawing the same sprite at the same place twice restores the
framebuffer; on pixels that were off the first draw reports no collision, and the second reports one if the sprite has
a set bit. (`x` and `y` are not `F`: the first draw would change the second's place, R175.) -/
def Obligations.DrawingTwiceErases : Prop :=
  ∀ x y n s, n ≤ 15 → (n = 0 ∨ s.i.toNat + n - 1 ≤ 0xFFF) → x ≠ 15 → y ≠ 15 →
    ∃ t u, exec (.drw x y n) s = .next t ∧ exec (.drw x y n) t = .next u ∧ u.fb = s.fb ∧
      ((∀ row < 32, ∀ col < 64, SpriteCovers s n (s.readV x).toNat (s.readV y).toNat row col →
          s.fbView (row * 64 + col) = false) →
        t.readV 15 = 0 ∧
        ((∃ row < 32, ∃ col < 64, SpriteCovers s n (s.readV x).toNat (s.readV y).toNat row col) → u.readV 15 = 1))

/-! ## Key skips (44_key_skip.md) -/

/-- R180, R181, R182: `SKP` and `SKNP` test the key whose index is the low nibble of `Vx`; nothing but `PC`
changes. -/
def Obligations.KeySkipsTestTheMaskedIndex : Prop :=
  WordsDecodeTo 0xF0FF 0xE09E (fun w => .skp (regOf (xField w))) ∧
  WordsDecodeTo 0xF0FF 0xE0A1 (fun w => .sknp (regOf (xField w))) ∧
  ∀ x s (k : KeyIndex), k.val = (s.readV x).toNat % 16 →
    exec (.skp x) s = .next { s with pc := if s.keyHeld k then s.pc + 4 else s.pc + 2 } ∧
    exec (.sknp x) s = .next { s with pc := if s.keyHeld k then s.pc + 2 else s.pc + 4 }

/-! ## Index, timers, key wait, memory blocks (45_register_timer_memory.md) -/

/-- R190, R196, R197: `LD I,addr`, `ADD I,Vx` (wrapping at 16 bits, no flag) and `LD F,Vx` (`V[x]` not masked) write
`I` and nothing else but `PC`. -/
def Obligations.IndexInstructionsWriteOnlyI : Prop :=
  WordsDecodeTo 0xF000 0xA000 (fun w => .ldI (nnnField w)) ∧
  WordsDecodeTo 0xF0FF 0xF01E (fun w => .addIX (regOf (xField w))) ∧
  WordsDecodeTo 0xF0FF 0xF029 (fun w => .ldFX (regOf (xField w))) ∧
  ∀ x nnn s,
    (∃ t, exec (.ldI nnn) s = .next t ∧ t.i.toNat = nnn.toNat ∧ t = { s with pc := s.pc + 2, i := t.i }) ∧
    (∃ t, exec (.addIX x) s = .next t ∧ t.i.toNat = (s.i.toNat + (s.readV x).toNat) % 65536 ∧
      t = { s with pc := s.pc + 2, i := t.i }) ∧
    (∃ t, exec (.ldFX x) s = .next t ∧ t.i.toNat = 0x050 + 5 * (s.readV x).toNat ∧
      t = { s with pc := s.pc + 2, i := t.i })

/-- R191, R194, R195: `LD Vx,DT` reads `DT` before the tick; `LD DT,Vx` and `LD ST,Vx` write a timer, and the tick of
the same cycle decrements the new value once. -/
def Obligations.TimerInstructionsMeetTheTick : Prop :=
  WordsDecodeTo 0xF0FF 0xF007 (fun w => .ldXDt (regOf (xField w))) ∧
  WordsDecodeTo 0xF0FF 0xF015 (fun w => .ldDtX (regOf (xField w))) ∧
  WordsDecodeTo 0xF0FF 0xF018 (fun w => .ldStX (regOf (xField w))) ∧
  ∀ x s,
    (∃ t, exec (.ldXDt x) s = .next t ∧ t.readV x = s.dt ∧ KeepsRegisters s t (· = x) ∧
      t = { s with pc := s.pc + 2, v := t.v }) ∧
    exec (.ldDtX x) s = .next { s with pc := s.pc + 2, dt := s.readV x } ∧
    exec (.ldStX x) s = .next { s with pc := s.pc + 2, st := s.readV x } ∧
    (Fetches s (.ldXDt x) → ∃ t, step s = .next t ∧ t.readV x = s.dt ∧ t.dt.toNat = s.dt.toNat - 1) ∧
    (Fetches s (.ldDtX x) → ∃ t, step s = .next t ∧ t.dt.toNat = (s.readV x).toNat - 1) ∧
    (Fetches s (.ldStX x) → ∃ t, step s = .next t ∧ t.st.toNat = (s.readV x).toNat - 1)

/-- R192 (with R193): `LD Vx,K` with a key held writes the lowest held key's index at once; with none held it sets
`Wait` and writes no register. Both leave `PC = pc0 + 2`. -/
def Obligations.KeyWaitResolvesAtOnceOrWaits : Prop :=
  WordsDecodeTo 0xF0FF 0xF00A (fun w => .ldXK (regOf (xField w))) ∧
  ∀ x s,
    (∀ k : KeyIndex, s.keyHeld k = true → (∀ j < k, s.keyHeld j = false) →
      ∃ t, exec (.ldXK x) s = .next t ∧ (t.readV x).toNat = k.val ∧ KeepsRegisters s t (· = x) ∧
        t = { s with pc := s.pc + 2, v := t.v }) ∧
    ((∀ k, s.keyHeld k = false) → exec (.ldXK x) s = .next { s with pc := s.pc + 2, wait := some x })

/-- R198: `LD B,Vx` stores the three decimal digits at `I`, `I+1`, `I+2`, and changes no other byte and not `I`; past
`0xFFF` it faults and writes nothing. -/
def Obligations.BcdStoresDecimalDigits : Prop :=
  WordsDecodeTo 0xF0FF 0xF033 (fun w => .ldBX (regOf (xField w))) ∧
  ∀ x s, s.mem.wf →
    (s.i.toNat + 2 ≤ 0xFFF → ∃ t, exec (.ldBX x) s = .next t ∧
      (t.mem.read s.i.toNat).toNat = (s.readV x).toNat / 100 ∧
      (t.mem.read (s.i.toNat + 1)).toNat = (s.readV x).toNat / 10 % 10 ∧
      (t.mem.read (s.i.toNat + 2)).toNat = (s.readV x).toNat % 10 ∧
      (∀ a, a < s.i.toNat ∨ s.i.toNat + 3 ≤ a → t.mem.read a = s.mem.read a) ∧
      t = { s with pc := s.pc + 2, mem := t.mem }) ∧
    (s.i.toNat + 2 > 0xFFF → exec (.ldBX x) s =
      .next (AccessFault s (some (encode (.ldBX x))) .bcdWrite (max s.i.toNat 0x1000)))

/-- R199: `LD [I],Vx` stores `V0`..`Vx` at `I`..`I+x`, and changes no other byte and not `I`; past `0xFFF` it faults
and writes nothing. -/
def Obligations.BlockStoreWritesRegisters : Prop :=
  WordsDecodeTo 0xF0FF 0xF055 (fun w => .ldMemX (regOf (xField w))) ∧
  ∀ x s, s.mem.wf →
    (s.i.toNat + x.val ≤ 0xFFF → ∃ t, exec (.ldMemX x) s = .next t ∧
      (∀ r ≤ x, t.mem.read (s.i.toNat + r.val) = s.readV r) ∧
      (∀ a, a < s.i.toNat ∨ s.i.toNat + x.val + 1 ≤ a → t.mem.read a = s.mem.read a) ∧
      t = { s with pc := s.pc + 2, mem := t.mem }) ∧
    (s.i.toNat + x.val > 0xFFF → exec (.ldMemX x) s =
      .next (AccessFault s (some (encode (.ldMemX x))) .blockStore (max s.i.toNat 0x1000)))

/-- R200: `LD Vx,[I]` loads `V0`..`Vx` from `I`..`I+x`, and changes no register above `x` and not `I`; past `0xFFF` it
faults and writes no register. -/
def Obligations.BlockLoadReadsRegisters : Prop :=
  WordsDecodeTo 0xF0FF 0xF065 (fun w => .ldXMem (regOf (xField w))) ∧
  ∀ x s,
    (s.i.toNat + x.val ≤ 0xFFF → ∃ t, exec (.ldXMem x) s = .next t ∧
      (∀ r ≤ x, t.readV r = s.mem.read (s.i.toNat + r.val)) ∧ KeepsRegisters s t (· ≤ x) ∧
      t = { s with pc := s.pc + 2, v := t.v }) ∧
    (s.i.toNat + x.val > 0xFFF → exec (.ldXMem x) s =
      .next (AccessFault s (some (encode (.ldXMem x))) .blockLoad (max s.i.toNat 0x1000)))

/-- 95_test_vectors.md E15, from R199 and R200: whatever the registers hold after a block store, the block load
restores `V0`..`Vx` and keeps the others. -/
def Obligations.StoreThenLoadRestores : Prop :=
  ∀ x s (v' : Vector Byte 16), s.mem.wf → s.i.toNat + x.val ≤ 0xFFF →
    ∃ t u, exec (.ldMemX x) s = .next t ∧ exec (.ldXMem x) { t with v := v' } = .next u ∧
      (∀ r ≤ x, u.readV r = s.readV r) ∧ (∀ r, x < r → u.readV r = v'[r])

/-- 20_memory.md R66: a block store over the next instruction's two bytes changes what the next fetch reads. -/
def Obligations.StoreIsSeenByTheNextFetch : Prop :=
  ∀ x s, s.mem.wf → 1 ≤ x.val → s.i = s.pc + 2 → s.i.toNat + x.val ≤ 0xFFF →
    ∃ t, exec (.ldMemX x) s = .next t ∧ t.fetchWord.toNat = (s.readV 0).toNat * 256 + (s.readV 1).toNat

/-! ## Frames: what each instruction leaves alone -/

/-- 10_state.md R24: an instruction writes no general register but those the table names for it. -/
def Obligations.OnlyNamedRegistersAreWritten : Prop :=
  ∀ i s t, exec i s = .next t → KeepsRegisters s t (writesReg · i)

/-- 20_memory.md R51, R60: an instruction changes no byte of memory but those it stores to: three from `I` for
`LD B,Vx`, `x + 1` from `I` for `LD [I],Vx`, none for every other instruction. -/
def Obligations.OnlyStoredBytesChange : Prop :=
  ∀ i s t, exec i s = .next t → ∀ a,
    (a < (storedBytes s i).1 ∨ (storedBytes s i).1 + (storedBytes s i).2 ≤ a) → t.mem.read a = s.mem.read a

/-- 10_state.md R25: only `LD I,addr`, `ADD I,Vx` and `LD F,Vx` write `I`. -/
def Obligations.OnlyIndexInstructionsWriteI : Prop :=
  ∀ i s t, exec i s = .next t → t.i ≠ s.i →
    (∃ nnn, i = .ldI nnn) ∨ (∃ x, i = .addIX x) ∨ (∃ x, i = .ldFX x)

/-- 10_state.md R27, R30: only `CALL` pushes and only `RET` pops; a pop leaves the stack's slots as they were. -/
def Obligations.OnlyCallAndRetTouchTheStack : Prop :=
  ∀ i s t, exec i s = .next t →
    (t.stack ≠ s.stack → ∃ nnn, i = .call nnn) ∧
    (t.sp ≠ s.sp → (∃ nnn, i = .call nnn) ∨ (∃ ignored, i = .ret ignored))

/-- 10_state.md R33, R32: only `CLS` and `DRW` change the framebuffer, and no instruction changes the keypad. -/
def Obligations.OnlyClsAndDrwChangePixels : Prop :=
  ∀ i s t, exec i s = .next t →
    (t.fb ≠ s.fb → (∃ ignored, i = .cls ignored) ∨ (∃ x y n, i = .drw x y n)) ∧ t.key = s.key

/-- 60_exceptions.md R226, R225: only `LD DT,Vx` and `LD ST,Vx` write a timer, only `LD Vx,K` the wait state, and only
the six instructions of R211 a fault record; 40_cycle_driver.md R112: only `RND` takes a draw. -/
def Obligations.OnlyNamedInstructionsTouchSystemState : Prop :=
  ∀ i s t, exec i s = .next t →
    (t.dt ≠ s.dt → ∃ x, i = .ldDtX x) ∧ (t.st ≠ s.st → ∃ x, i = .ldStX x) ∧
    (t.wait ≠ s.wait → ∃ x, i = .ldXK x) ∧ (t.draws ≠ s.draws → ∃ x kk, i = .rnd x kk) ∧
    (t.fault ≠ s.fault → (∃ nnn, i = .call nnn) ∨ (∃ ignored, i = .ret ignored) ∨ (∃ x y n, i = .drw x y n) ∨
      (∃ x, i = .ldBX x) ∨ (∃ x, i = .ldMemX x) ∨ (∃ x, i = .ldXMem x))

/-- 40_cycle_driver.md R104: an instruction that neither jumps nor skips, and does not fault, leaves
`PC = pc0 + 2`. -/
def Obligations.OtherInstructionsAdvanceByTwo : Prop :=
  ∀ i s t, ¬ jumpsOrSkips i → s.fault = none → exec i s = .next t → t.fault = none → t.pc = s.pc + 2

/-! ## The cycle (40_cycle_driver.md) -/

/-- R100, R103, R105, R106: when the two bytes at `PC` decode to `i`, the step is `exec i`, and then the tick unless
`exec` latched a fault. -/
def Obligations.StepRunsTheDecodedInstruction : Prop :=
  ∀ s i t, s.fault = none → s.wait = none → s.pc.toNat + 1 ≤ 0xFFF →
    decode [s.mem.read s.pc.toNat, s.mem.read (s.pc.toNat + 1)] = .ok (i, []) → exec i s = .next t →
    (t.fault = none → step s = .next { t with
      dt := BitVec.ofNat 8 (t.dt.toNat - 1), st := BitVec.ofNat 8 (t.st.toNat - 1) }) ∧
    (t.fault ≠ none → step s = .next t)

/-- R102: a waiting cycle with a key held writes the lowest held key's index into the waiting register and clears
`Wait`; with none held it changes nothing; the timers tick either way; nothing is fetched and nothing reported. -/
def Obligations.WaitingCycleSamplesTheKeys : Prop :=
  ∀ s r, s.fault = none → s.wait = some r → diagnostic s = none ∧ ∃ t, step s = .next t ∧
    t.dt.toNat = s.dt.toNat - 1 ∧ t.st.toNat = s.st.toNat - 1 ∧
    (∀ k : KeyIndex, s.keyHeld k = true → (∀ j < k, s.keyHeld j = false) →
      (t.readV r).toNat = k.val ∧ KeepsRegisters s t (· = r) ∧
      t = { s with v := t.v, wait := none, dt := t.dt, st := t.st }) ∧
    ((∀ k, s.keyHeld k = false) → t = { s with dt := t.dt, st := t.st })

/-- R102, R106, R234: while no key is held a waiting core only counts its timers down, for any number of cycles. -/
def Obligations.WaitingLastsUntilAKeyIsHeld : Prop :=
  ∀ (n : Nat) (s : State) (r : Reg), s.fault = none → s.wait = some r → (∀ k, s.keyHeld k = false) →
    Host.Core.run core n s = .next { s with
      dt := BitVec.ofNat 8 (s.dt.toNat - n), st := BitVec.ofNat 8 (s.st.toNat - n) }

/-- R103, R213: a fetch at `0xFFF` or above faults, and the record has no word and names the first address above
`0xFFF`. -/
def Obligations.FetchPastTheEndFaults : Prop :=
  ∀ s, s.fault = none → s.wait = none → 0xFFF ≤ s.pc.toNat →
    step s = .next (AccessFault s none .fetch (max s.pc.toNat 0x1000))

/-- R105, 60_exceptions.md R212: a word with no handler only advances `PC`, ticks the timers and is reported. -/
def Obligations.UnknownOpcodeOnlyAdvancesAndTicks : Prop :=
  ∀ s, s.fault = none → s.wait = none → s.pc.toNat + 1 ≤ 0xFFF → decodeWord s.fetchWord = none →
    step s = .next { s with
      pc := s.pc + 2, dt := BitVec.ofNat 8 (s.dt.toNat - 1), st := BitVec.ofNat 8 (s.st.toNat - 1) } ∧
    diagnostic s = some ⟨⟨.unknownOpcode, s.pc, some s.fetchWord, none, none⟩, false⟩

/-- R106, 60_exceptions.md R226: every cycle that is neither halted nor aborted decrements each timer once, floored at
zero: the timer as the handler left it; `LD Vx,DT` reads `DT` before that. -/
def Obligations.TimersTickOncePerCycle : Prop :=
  ∀ s t, step s = .next t → s.fault = none → t.fault = none →
    (∀ x, Fetches s (.ldDtX x) → t.dt.toNat = (s.readV x).toNat - 1) ∧
    ((∀ x, ¬ Fetches s (.ldDtX x)) → t.dt.toNat = s.dt.toNat - 1) ∧
    (∀ x, Fetches s (.ldStX x) → t.st.toNat = (s.readV x).toNat - 1) ∧
    ((∀ x, ¬ Fetches s (.ldStX x)) → t.st.toNat = s.st.toNat - 1) ∧
    (∀ x, Fetches s (.ldXDt x) → t.readV x = s.dt)

/-- 10_state.md R35: only `LD Vx,K` with no key held sets `Wait`, and only a waiting cycle that sees a held key clears
it. -/
def Obligations.OnlyKeyWaitSetsAndKeysClearWait : Prop :=
  ∀ s t r, step s = .next t →
    (t.wait = some r → s.wait = some r ∨ Fetches s (.ldXK r) ∧ ∀ k, s.keyHeld k = false) ∧
    (s.wait = some r → t.wait ≠ some r → s.fault = none ∧ t.wait = none ∧ ∃ k, s.keyHeld k = true)

/-- 70_reset_and_hazards.md R253, R254 (the model's form of it, entry 3): every cycle of every state answers a next
state; the core never stops but by latching a fault. -/
def Obligations.EveryCycleAnswersANextState : Prop := ∀ s, ∃ t, step s = .next t

/-- 70_reset_and_hazards.md R254 (b): in a self-loop every cycle leaves everything but `DT` and `ST` unchanged. -/
def Obligations.SelfLoopChangesOnlyTheTimers : Prop :=
  ∀ (n : Nat) (s : State), SelfLoop s → Host.Core.run core n s = .next { s with
    dt := BitVec.ofNat 8 (s.dt.toNat - n), st := BitVec.ofNat 8 (s.st.toNat - n) }

/-! ## Faults and diagnostics (60_exceptions.md) -/

/-- R211, R213, R217: a core that is neither halted nor waiting faults in exactly the listed cases. -/
def Obligations.FaultsAreExactlyTheListedOnes : Prop :=
  ∀ s t, s.fault = none → s.wait = none → step s = .next t → (t.fault ≠ none ↔ Raises s)

/-- R214, R219, R10: a cycle that faults leaves every state element at its value at the start of the cycle, `PC` at
the instruction and the timers not ticked, and latches a legal record of that address and that word. -/
def Obligations.FaultsAbortTheWholeCycle : Prop :=
  ∀ s t r, s.fault = none → step s = .next t → t.fault = some r →
    t = { s with fault := some r } ∧ r.pc = s.pc ∧ r.legal ∧ (r.word = none ∨ r.word = some s.fetchWord)

/-- R214, 40_cycle_driver.md R101: a halted core changes nothing and reports nothing, for any number of cycles. -/
def Obligations.HaltedCoreChangesNothing : Prop :=
  ∀ (n : Nat) (s : State), s.fault ≠ none → Host.Core.run core n s = .next s ∧ diagnostic s = none

/-- R216, 40_cycle_driver.md R107: a cycle reports exactly the error it detects: a fault as it latches it, an unknown
opcode with its word and address, and nothing else. -/
def Obligations.DiagnosticsReportExactlyTheErrors : Prop :=
  ∀ s t, step s = .next t →
    (s.fault ≠ none ∨ s.wait ≠ none → diagnostic s = none) ∧
    (s.fault = none → ∀ r, t.fault = some r → diagnostic s = some ⟨r, true⟩) ∧
    (s.fault = none → s.wait = none → t.fault = none →
      diagnostic s = (match decodeWord s.fetchWord with
        | none => some ⟨⟨.unknownOpcode, s.pc, some s.fetchWord, none, none⟩, false⟩
        | some _ => none))

/-! ## Encoding (30_encoding.md) -/

/-- R70, R82: the decoder reads every well-formed instruction back from its two bytes, every operand and every ignored
bit at every value, and leaves the bytes after them. -/
def Obligations.DecodeInvertsEncode : Prop :=
  ∀ i rest, WellFormed i = true → decodeWord (encode i) = some i ∧ decode (encodeBytes i ++ rest) = .ok (i, rest)

/-- R82, R84: a word that decodes is the encoding of the well-formed instruction it decodes to, so each instruction
has one word and the fault record's word is the fetched one. -/
def Obligations.EncodeInvertsDecode : Prop :=
  ∀ w i, decodeWord w = some i → encode i = w ∧ WellFormed i = true

/-- R83: the unknown words are exactly the listed ones. -/
def Obligations.UnknownWordsAreExactlyTheListedOnes : Prop :=
  ∀ w : Word, decodeWord w = none ↔
    OpIs w 0x0 ∧ w.toNat % 256 ∉ [0xE0, 0xEE] ∨
    OpIs w 0x8 ∧ w.toNat % 16 ∈ [0x8, 0x9, 0xA, 0xB, 0xC, 0xD, 0xF] ∨
    OpIs w 0xE ∧ w.toNat % 256 ∉ [0x9E, 0xA1] ∨
    OpIs w 0xF ∧ w.toNat % 256 ∉ [0x07, 0x0A, 0x15, 0x18, 0x1E, 0x29, 0x33, 0x55, 0x65]

/-- R82: at most one row of the opcode map matches a word, the instruction's own, and a word no row matches is
unknown. -/
def Obligations.OpcodeMapClassifiesEveryWord : Prop :=
  ∀ w, (∀ i, decodeWord w = some i → ∀ r ∈ opcodeRows, r.matches w = true ↔ rowOf i = some r) ∧
    (decodeWord w = none → ∀ r ∈ opcodeRows, r.matches w = false)

/-- Words of each family written out from the rows of R82, and the examples of 95_test_vectors.md E1–E4, V7–V11: what
they decode to. -/
def Obligations.SpecWordsDecodeAsListed : Prop :=
  decode [0x12, 0x4E] = .ok (.jp 0x24E, []) ∧ decodeWord 0x1234 = some (.jp 0x234) ∧
  decodeWord 0x00E0 = some (.cls 0) ∧ decodeWord 0x05E0 = some (.cls 5) ∧ decodeWord 0x8630 = some (.ldXy 6 3) ∧
  decodeWord 0x7102 = some (.addKk 1 2) ∧ decodeWord 0xD123 = some (.drw 1 2 3) ∧
  decodeWord 0xE5A1 = some (.sknp 5) ∧ decodeWord 0xF355 = some (.ldMemX 3) ∧
  decodeWord 0x00E1 = none ∧ decodeWord 0x0123 = none ∧ decodeWord 0x8008 = none ∧ decodeWord 0x800F = none ∧
  decodeWord 0xE19F = none ∧ decodeWord 0xF000 = none ∧ decodeWord 0xF1FF = none

/-- R84, R76, R77: the bits an instruction ignores change nothing it does; a `RET` that faults records its own
word. -/
def Obligations.IgnoredBitsChangeNothing : Prop :=
  ∀ x y (a b : Nibble) s,
    exec (.cls a) s = exec (.cls b) s ∧ exec (.seXy x y a) s = exec (.seXy x y b) s ∧
    exec (.sneXy x y a) s = exec (.sneXy x y b) s ∧ exec (.shr x a) s = exec (.shr x b) s ∧
    exec (.shl x a) s = exec (.shl x b) s ∧ (s.sp.val ≠ 0 → exec (.ret a) s = exec (.ret b) s)

/-! ## The invariant, reset and the host (10_state.md, 70_reset_and_hazards.md) -/

/-- The headline: from every state that meets the invariant, a step leads to one that meets it: memory stays in
canonical form, no `PC` exceeds `0x10FE` (R110) and no return address `0x1000`, and a halted core keeps a legal record
of the instruction it stands at (R215, R219). -/
def Obligations.StepKeepsTheInvariant : Prop :=
  ∀ s t : State, s.Inv → step s = .next t → t.Inv

/-- The state right after reset meets the invariant. -/
def Obligations.ResetMeetsTheInvariant : Prop := State.reset.Inv

/-- R227, R240, R243: what the host may do between cycles keeps the invariant. -/
def Obligations.HostActionsKeepTheInvariant : Prop :=
  ∀ s : State, s.Inv → (∀ k held, (s.setKey k held).Inv) ∧ s.hostReset.Inv ∧
    ∀ bytes t, s.load bytes = some t → t.Inv

/-- R110, R217, R244: in every state the core and its host can reach, `PC` is at most `0x10FE`, memory is in canonical
form, and a halted core is not waiting. -/
def Obligations.ReachableStatesAreLegal : Prop :=
  ∀ s, Reachable s → s.pc.toNat ≤ 0x10FE ∧ s.mem.wf ∧ (s.fault ≠ none → s.wait = none) ∧
    ∀ r, s.fault = some r → r.legal

/-- 10_state.md, section 16: every state element after reset. The model's own, not the spec's: the zero clause also
covers addresses above `0xFFF` (entry 12), the pixel clause indices of 2048 and above (entry 7). -/
def Obligations.ResetStateIsAsListed : Prop :=
  (∀ d j, d < 16 → j < 5 → State.reset.mem.read (0x050 + 5 * d + j) = (glyphs.getD d []).getD j 0) ∧
  (∀ a, a < 0x050 ∨ 0x09F < a → State.reset.mem.read a = 0) ∧
  (∀ r, State.reset.readV r = 0) ∧ State.reset.i = 0 ∧ State.reset.pc = 0x200 ∧
  (∀ j : Fin 16, State.reset.stack[j] = 0) ∧ State.reset.sp = 0 ∧ State.reset.dt = 0 ∧ State.reset.st = 0 ∧
  (∀ k, State.reset.keyHeld k = false) ∧ (∀ j, State.reset.fbView j = false) ∧
  State.reset.wait = none ∧ State.reset.fault = none

/-- R240, R227: a reset at any boundary leaves the state of R42 (the count of draws, the model's own, goes on: entry
2), so the core is no longer halted; writing a key changes that key alone. -/
def Obligations.HostResetsAndSetsKeys : Prop :=
  ∀ s : State, s.hostReset = { State.reset with draws := s.draws } ∧ s.hostReset.fault = none ∧
    ∀ k held, (∀ j, (s.setKey k held).keyHeld j = if j = k then held else s.keyHeld j) ∧
      s.setKey k held = { s with key := (s.setKey k held).key }

/-- R243: a program of at most 3584 bytes is stored from `0x200` and changes no other byte; a longer one is refused as
a whole. -/
def Obligations.LoadStoresTheProgramOrIsRefused : Prop :=
  ∀ (s : State) (bytes : List Byte), s.mem.wf →
    (bytes.length ≤ 3584 → ∃ t, s.load bytes = some t ∧
      (∀ j, j < bytes.length → bytes[j]? = some (t.mem.read (0x200 + j))) ∧
      (∀ a, a < 0x200 ∨ 0x200 + bytes.length ≤ a → t.mem.read a = s.mem.read a) ∧ t = { s with mem := t.mem }) ∧
    (3584 < bytes.length → s.load bytes = none)
end

