-- ==== Sys2Proof/Laws/Memory.lean ====
section
/-! SUPPORT. The laws of memory: a read after a write, and every memory operation keeps the canonical form. -/

namespace Sys2Proof.Machine

@[simp] theorem read_nil (a : Nat) : Memory.read [] a = resetByte a := rfl

theorem read_cons (k : Nat) (b : Byte) (m : Memory) (a : Nat) :
    Memory.read ((k, b) :: m) a = if k = a then b else Memory.read m a := rfl

theorem wf_nil : Memory.wf [] := ⟨.nil, fun _ h => absurd h (by simp)⟩

theorem wf_cons {k : Nat} {b : Byte} {m : Memory} :
    Memory.wf ((k, b) :: m) ↔
      (∀ c ∈ m, k < c.1) ∧ k ≤ Config.addrMax ∧ b ≠ resetByte k ∧ Memory.wf m := by
  simp only [Memory.wf, List.pairwise_cons, List.mem_cons, forall_eq_or_imp]
  tauto

/-- An address below every listed one reads as after reset. -/
theorem read_of_lt {m : Memory} {a : Nat} (h : ∀ c ∈ m, a < c.1) : m.read a = resetByte a := by
  induction m with
  | nil => rfl
  | cons c m ih =>
    obtain ⟨k, v⟩ := c
    have hk : k ≠ a := (h (k, v) (by simp)).ne'
    rw [read_cons, if_neg hk, ih fun d hd => h d (by simp [hd])]

/-- A write leaves every other byte alone (R60). -/
theorem read_write_of_ne (m : Memory) {a a' : Nat} (b : Byte) (h : a' ≠ a) :
    (m.write a b).read a' = m.read a' := by
  induction m with
  | nil => simp only [Memory.write]; split <;> simp [read_cons, h.symm]
  | cons c m ih =>
    obtain ⟨k, v⟩ := c
    simp only [Memory.write]
    split
    · split <;> simp [read_cons, h.symm]
    · split
      · next e => subst e; split <;> simp [read_cons, h.symm]
      · simp only [read_cons, ih]

/-- A read returns the latest write (R63). -/
theorem read_write_self {m : Memory} (hm : m.wf) (a : Nat) (b : Byte) : (m.write a b).read a = b := by
  induction m with
  | nil =>
    simp only [Memory.write]
    split
    · next h => exact h.symm
    · simp [read_cons]
  | cons c m ih =>
    obtain ⟨k, v⟩ := c
    obtain ⟨hlt, -, -, hwf⟩ := wf_cons.1 hm
    simp only [Memory.write]
    split
    · next hac =>
      split
      · next hb =>
        rw [hb, read_cons, if_neg (Nat.ne_of_gt hac), read_of_lt fun d hd => hac.trans (hlt d hd)]
      · simp [read_cons]
    · split
      · next e =>
        subst e
        split
        · next hb => rw [hb]; exact read_of_lt hlt
        · simp [read_cons]
      · next hne => rw [read_cons, if_neg (Ne.symm hne), ih hwf]

theorem read_write {m : Memory} (hm : m.wf) (a a' : Nat) (b : Byte) :
    (m.write a b).read a' = if a' = a then b else m.read a' := by
  split
  · next h => rw [h, read_write_self hm]
  · next h => exact read_write_of_ne m b h

/-- The cells after a write are the written one and old ones. -/
theorem mem_write {m : Memory} {a : Nat} {b : Byte} {c : Host.Cell} (h : c ∈ m.write a b) :
    c = (a, b) ∨ c ∈ m := by
  induction m with
  | nil => simp only [Memory.write] at h; split at h <;> simp_all
  | cons d m ih =>
    obtain ⟨k, v⟩ := d
    simp only [Memory.write] at h
    split at h
    · split at h <;> simp_all
    · split at h
      · split at h <;> simp only [List.mem_cons] at h ⊢ <;> tauto
      · simp only [List.mem_cons] at h ⊢
        rcases h with h | h
        · exact .inr (.inl h)
        · rcases ih h with h | h
          · exact .inl h
          · exact .inr (.inr h)

/-- A write keeps the canonical form. -/
theorem write_wf {m : Memory} (hm : m.wf) {a : Nat} (ha : a ≤ Config.addrMax) (b : Byte) : (m.write a b).wf := by
  induction m with
  | nil =>
    simp only [Memory.write]
    split
    · exact hm
    · next hb => exact wf_cons.2 ⟨fun _ h => absurd h (by simp), ha, hb, wf_nil⟩
  | cons c m ih =>
    obtain ⟨k, v⟩ := c
    obtain ⟨hlt, hk, hne, hwf⟩ := wf_cons.1 hm
    simp only [Memory.write]
    split
    · next hac =>
      split
      · exact hm
      · next hb =>
        refine wf_cons.2 ⟨fun d hd => ?_, ha, hb, hm⟩
        rcases List.mem_cons.1 hd with rfl | hd
        · exact hac
        · exact hac.trans (hlt d hd)
    · next hac =>
      split
      · next e =>
        split
        · exact hwf
        · next hb => exact wf_cons.2 ⟨fun d hd => e ▸ hlt d hd, ha, hb, hwf⟩
      · next hne' =>
        refine wf_cons.2 ⟨fun d hd => ?_, hk, hne, ih hwf⟩
        rcases mem_write hd with rfl | hd
        · show k < a; omega
        · exact hlt d hd

/-- A block of writes keeps the canonical form. -/
theorem writeBytes_wf {bytes : List Byte} : ∀ {m : Memory} {a : Nat}, m.wf →
    a + bytes.length ≤ Config.addrMax + 1 → (m.writeBytes a bytes).wf := by
  induction bytes with
  | nil => exact fun hm _ => hm
  | cons b bytes ih =>
    intro m a hm h
    simp only [List.length_cons] at h
    exact ih (write_wf hm (by omega) b) (by omega)

/-- A block of writes leaves every byte outside the block alone. -/
theorem read_writeBytes_of_outside {bytes : List Byte} : ∀ {m : Memory} {a a' : Nat},
    a' < a ∨ a + bytes.length ≤ a' → (m.writeBytes a bytes).read a' = m.read a' := by
  induction bytes with
  | nil => exact fun _ => rfl
  | cons b bytes ih =>
    intro m a a' h
    simp only [List.length_cons] at h
    rw [Memory.writeBytes, ih (by omega), read_write_of_ne m b (by omega)]

/-- A block of writes stores each byte at its place. -/
theorem read_writeBytes_of_inside {bytes : List Byte} : ∀ {m : Memory} {a j : Nat} (hj : j < bytes.length), m.wf →
    a + bytes.length ≤ Config.addrMax + 1 → (m.writeBytes a bytes).read (a + j) = bytes[j] := by
  induction bytes with
  | nil => exact fun hj => absurd hj (by simp)
  | cons b bytes ih =>
    intro m a j hj hm h
    simp only [List.length_cons] at h hj
    cases j with
    | zero => rw [Memory.writeBytes, read_writeBytes_of_outside (by omega)]; exact read_write_self hm a b
    | succ j =>
      rw [Memory.writeBytes, show a + (j + 1) = (a + 1) + j by omega,
        ih (by omega) (write_wf hm (by omega) b) (by omega)]; rfl

/-- The bounds check passes exactly when the access is empty or ends inside the address space (R58). -/
theorem checkRange_eq_none {base : Word} {count : Nat} :
    checkRange base count = none ↔ count = 0 ∨ base.toNat + count ≤ 0x1000 := by
  unfold checkRange Config.addrMax
  split
  · simp only [reduceCtorEq, false_iff]; omega
  · simp only [true_iff]; omega

/-- Otherwise it names the first address above `0xFFF` (R58). -/
theorem checkRange_eq_some {base : Word} {count bad : Nat} :
    checkRange base count = some bad ↔
      0 < count ∧ 0x1000 < base.toNat + count ∧ bad = max base.toNat 0x1000 := by
  unfold checkRange Config.addrMax
  split
  · simp only [Option.some.injEq]; omega
  · simp only [reduceCtorEq, false_iff]; omega

end Sys2Proof.Machine
end

