-- ==== Sys2Proof/Laws/State.lean ====
section
/-! SUPPORT. What each update of the state does to each field: one lemma per field per update, so that no proof
unfolds an update. -/

namespace Sys2Proof.Machine

/-! ## advance -/

@[simp] theorem advance_mem (s : State) : (s.advance).mem = s.mem := rfl
@[simp] theorem advance_v (s : State) : (s.advance).v = s.v := rfl
@[simp] theorem advance_i (s : State) : (s.advance).i = s.i := rfl
@[simp] theorem advance_pc (s : State) : (s.advance).pc = s.pc + 2 := rfl
@[simp] theorem advance_stack (s : State) : (s.advance).stack = s.stack := rfl
@[simp] theorem advance_sp (s : State) : (s.advance).sp = s.sp := rfl
@[simp] theorem advance_dt (s : State) : (s.advance).dt = s.dt := rfl
@[simp] theorem advance_st (s : State) : (s.advance).st = s.st := rfl
@[simp] theorem advance_key (s : State) : (s.advance).key = s.key := rfl
@[simp] theorem advance_fb (s : State) : (s.advance).fb = s.fb := rfl
@[simp] theorem advance_wait (s : State) : (s.advance).wait = s.wait := rfl
@[simp] theorem advance_fault (s : State) : (s.advance).fault = s.fault := rfl
@[simp] theorem advance_draws (s : State) : (s.advance).draws = s.draws := rfl

/-! ## writeV -/

@[simp] theorem writeV_mem (s : State) (x : Reg) (b : Byte) : (s.writeV x b).mem = s.mem := rfl
@[simp] theorem writeV_v (s : State) (x : Reg) (b : Byte) : (s.writeV x b).v = s.v.set x b := rfl
@[simp] theorem writeV_i (s : State) (x : Reg) (b : Byte) : (s.writeV x b).i = s.i := rfl
@[simp] theorem writeV_pc (s : State) (x : Reg) (b : Byte) : (s.writeV x b).pc = s.pc := rfl
@[simp] theorem writeV_stack (s : State) (x : Reg) (b : Byte) : (s.writeV x b).stack = s.stack := rfl
@[simp] theorem writeV_sp (s : State) (x : Reg) (b : Byte) : (s.writeV x b).sp = s.sp := rfl
@[simp] theorem writeV_dt (s : State) (x : Reg) (b : Byte) : (s.writeV x b).dt = s.dt := rfl
@[simp] theorem writeV_st (s : State) (x : Reg) (b : Byte) : (s.writeV x b).st = s.st := rfl
@[simp] theorem writeV_key (s : State) (x : Reg) (b : Byte) : (s.writeV x b).key = s.key := rfl
@[simp] theorem writeV_fb (s : State) (x : Reg) (b : Byte) : (s.writeV x b).fb = s.fb := rfl
@[simp] theorem writeV_wait (s : State) (x : Reg) (b : Byte) : (s.writeV x b).wait = s.wait := rfl
@[simp] theorem writeV_fault (s : State) (x : Reg) (b : Byte) : (s.writeV x b).fault = s.fault := rfl
@[simp] theorem writeV_draws (s : State) (x : Reg) (b : Byte) : (s.writeV x b).draws = s.draws := rfl

/-! ## writeFlagged -/

@[simp] theorem writeFlagged_mem (s : State) (x : Reg) (a b : Byte) : (s.writeFlagged x a b).mem = s.mem := rfl
@[simp] theorem writeFlagged_v (s : State) (x : Reg) (a b : Byte) : (s.writeFlagged x a b).v = (s.v.set x a).set 15 b := rfl
@[simp] theorem writeFlagged_i (s : State) (x : Reg) (a b : Byte) : (s.writeFlagged x a b).i = s.i := rfl
@[simp] theorem writeFlagged_pc (s : State) (x : Reg) (a b : Byte) : (s.writeFlagged x a b).pc = s.pc := rfl
@[simp] theorem writeFlagged_stack (s : State) (x : Reg) (a b : Byte) : (s.writeFlagged x a b).stack = s.stack := rfl
@[simp] theorem writeFlagged_sp (s : State) (x : Reg) (a b : Byte) : (s.writeFlagged x a b).sp = s.sp := rfl
@[simp] theorem writeFlagged_dt (s : State) (x : Reg) (a b : Byte) : (s.writeFlagged x a b).dt = s.dt := rfl
@[simp] theorem writeFlagged_st (s : State) (x : Reg) (a b : Byte) : (s.writeFlagged x a b).st = s.st := rfl
@[simp] theorem writeFlagged_key (s : State) (x : Reg) (a b : Byte) : (s.writeFlagged x a b).key = s.key := rfl
@[simp] theorem writeFlagged_fb (s : State) (x : Reg) (a b : Byte) : (s.writeFlagged x a b).fb = s.fb := rfl
@[simp] theorem writeFlagged_wait (s : State) (x : Reg) (a b : Byte) : (s.writeFlagged x a b).wait = s.wait := rfl
@[simp] theorem writeFlagged_fault (s : State) (x : Reg) (a b : Byte) : (s.writeFlagged x a b).fault = s.fault := rfl
@[simp] theorem writeFlagged_draws (s : State) (x : Reg) (a b : Byte) : (s.writeFlagged x a b).draws = s.draws := rfl

/-! ## push -/

@[simp] theorem push_mem (s : State) (w : Word) : (s.push w).mem = s.mem := rfl
@[simp] theorem push_v (s : State) (w : Word) : (s.push w).v = s.v := rfl
@[simp] theorem push_i (s : State) (w : Word) : (s.push w).i = s.i := rfl
@[simp] theorem push_pc (s : State) (w : Word) : (s.push w).pc = s.pc := rfl
@[simp] theorem push_stack (s : State) (w : Word) : (s.push w).stack = s.stack.setIfInBounds s.sp.val w := rfl
@[simp] theorem push_sp (s : State) (w : Word) : (s.push w).sp = s.sp + 1 := rfl
@[simp] theorem push_dt (s : State) (w : Word) : (s.push w).dt = s.dt := rfl
@[simp] theorem push_st (s : State) (w : Word) : (s.push w).st = s.st := rfl
@[simp] theorem push_key (s : State) (w : Word) : (s.push w).key = s.key := rfl
@[simp] theorem push_fb (s : State) (w : Word) : (s.push w).fb = s.fb := rfl
@[simp] theorem push_wait (s : State) (w : Word) : (s.push w).wait = s.wait := rfl
@[simp] theorem push_fault (s : State) (w : Word) : (s.push w).fault = s.fault := rfl
@[simp] theorem push_draws (s : State) (w : Word) : (s.push w).draws = s.draws := rfl

/-! ## popPc -/

@[simp] theorem popPc_mem (s : State) : (s.popPc).mem = s.mem := rfl
@[simp] theorem popPc_v (s : State) : (s.popPc).v = s.v := rfl
@[simp] theorem popPc_i (s : State) : (s.popPc).i = s.i := rfl
@[simp] theorem popPc_pc (s : State) : (s.popPc).pc = s.top := rfl
@[simp] theorem popPc_stack (s : State) : (s.popPc).stack = s.stack := rfl
@[simp] theorem popPc_sp (s : State) : (s.popPc).sp = s.sp - 1 := rfl
@[simp] theorem popPc_dt (s : State) : (s.popPc).dt = s.dt := rfl
@[simp] theorem popPc_st (s : State) : (s.popPc).st = s.st := rfl
@[simp] theorem popPc_key (s : State) : (s.popPc).key = s.key := rfl
@[simp] theorem popPc_fb (s : State) : (s.popPc).fb = s.fb := rfl
@[simp] theorem popPc_wait (s : State) : (s.popPc).wait = s.wait := rfl
@[simp] theorem popPc_fault (s : State) : (s.popPc).fault = s.fault := rfl
@[simp] theorem popPc_draws (s : State) : (s.popPc).draws = s.draws := rfl

/-! ## tick -/

@[simp] theorem tick_mem (s : State) : (s.tick).mem = s.mem := rfl
@[simp] theorem tick_v (s : State) : (s.tick).v = s.v := rfl
@[simp] theorem tick_i (s : State) : (s.tick).i = s.i := rfl
@[simp] theorem tick_pc (s : State) : (s.tick).pc = s.pc := rfl
@[simp] theorem tick_stack (s : State) : (s.tick).stack = s.stack := rfl
@[simp] theorem tick_sp (s : State) : (s.tick).sp = s.sp := rfl
@[simp] theorem tick_dt (s : State) : (s.tick).dt = tickByte s.dt := rfl
@[simp] theorem tick_st (s : State) : (s.tick).st = tickByte s.st := rfl
@[simp] theorem tick_key (s : State) : (s.tick).key = s.key := rfl
@[simp] theorem tick_fb (s : State) : (s.tick).fb = s.fb := rfl
@[simp] theorem tick_wait (s : State) : (s.tick).wait = s.wait := rfl
@[simp] theorem tick_fault (s : State) : (s.tick).fault = s.fault := rfl
@[simp] theorem tick_draws (s : State) : (s.tick).draws = s.draws := rfl

/-! ## takeFault -/

@[simp] theorem takeFault_mem (s : State) (code : ErrorKind) (word : Option Word) (access : Option AccessKind) (addr : Option Nat) : (s.takeFault code word access addr).mem = s.mem := rfl
@[simp] theorem takeFault_v (s : State) (code : ErrorKind) (word : Option Word) (access : Option AccessKind) (addr : Option Nat) : (s.takeFault code word access addr).v = s.v := rfl
@[simp] theorem takeFault_i (s : State) (code : ErrorKind) (word : Option Word) (access : Option AccessKind) (addr : Option Nat) : (s.takeFault code word access addr).i = s.i := rfl
@[simp] theorem takeFault_pc (s : State) (code : ErrorKind) (word : Option Word) (access : Option AccessKind) (addr : Option Nat) : (s.takeFault code word access addr).pc = s.pc := rfl
@[simp] theorem takeFault_stack (s : State) (code : ErrorKind) (word : Option Word) (access : Option AccessKind) (addr : Option Nat) : (s.takeFault code word access addr).stack = s.stack := rfl
@[simp] theorem takeFault_sp (s : State) (code : ErrorKind) (word : Option Word) (access : Option AccessKind) (addr : Option Nat) : (s.takeFault code word access addr).sp = s.sp := rfl
@[simp] theorem takeFault_dt (s : State) (code : ErrorKind) (word : Option Word) (access : Option AccessKind) (addr : Option Nat) : (s.takeFault code word access addr).dt = s.dt := rfl
@[simp] theorem takeFault_st (s : State) (code : ErrorKind) (word : Option Word) (access : Option AccessKind) (addr : Option Nat) : (s.takeFault code word access addr).st = s.st := rfl
@[simp] theorem takeFault_key (s : State) (code : ErrorKind) (word : Option Word) (access : Option AccessKind) (addr : Option Nat) : (s.takeFault code word access addr).key = s.key := rfl
@[simp] theorem takeFault_fb (s : State) (code : ErrorKind) (word : Option Word) (access : Option AccessKind) (addr : Option Nat) : (s.takeFault code word access addr).fb = s.fb := rfl
@[simp] theorem takeFault_wait (s : State) (code : ErrorKind) (word : Option Word) (access : Option AccessKind) (addr : Option Nat) : (s.takeFault code word access addr).wait = s.wait := rfl
@[simp] theorem takeFault_fault (s : State) (code : ErrorKind) (word : Option Word) (access : Option AccessKind) (addr : Option Nat) : (s.takeFault code word access addr).fault = some ⟨code, s.pc, word, access, addr⟩ := rfl
@[simp] theorem takeFault_draws (s : State) (code : ErrorKind) (word : Option Word) (access : Option AccessKind) (addr : Option Nat) : (s.takeFault code word access addr).draws = s.draws := rfl

/-! ## stackFault -/

@[simp] theorem stackFault_mem (s : State) (code : ErrorKind) (i : Instr) : (s.stackFault code i).mem = s.mem := rfl
@[simp] theorem stackFault_v (s : State) (code : ErrorKind) (i : Instr) : (s.stackFault code i).v = s.v := rfl
@[simp] theorem stackFault_i (s : State) (code : ErrorKind) (i : Instr) : (s.stackFault code i).i = s.i := rfl
@[simp] theorem stackFault_pc (s : State) (code : ErrorKind) (i : Instr) : (s.stackFault code i).pc = s.pc := rfl
@[simp] theorem stackFault_stack (s : State) (code : ErrorKind) (i : Instr) : (s.stackFault code i).stack = s.stack := rfl
@[simp] theorem stackFault_sp (s : State) (code : ErrorKind) (i : Instr) : (s.stackFault code i).sp = s.sp := rfl
@[simp] theorem stackFault_dt (s : State) (code : ErrorKind) (i : Instr) : (s.stackFault code i).dt = s.dt := rfl
@[simp] theorem stackFault_st (s : State) (code : ErrorKind) (i : Instr) : (s.stackFault code i).st = s.st := rfl
@[simp] theorem stackFault_key (s : State) (code : ErrorKind) (i : Instr) : (s.stackFault code i).key = s.key := rfl
@[simp] theorem stackFault_fb (s : State) (code : ErrorKind) (i : Instr) : (s.stackFault code i).fb = s.fb := rfl
@[simp] theorem stackFault_wait (s : State) (code : ErrorKind) (i : Instr) : (s.stackFault code i).wait = s.wait := rfl
@[simp] theorem stackFault_fault (s : State) (code : ErrorKind) (i : Instr) : (s.stackFault code i).fault = some ⟨code, s.pc, some (encode i), none, none⟩ := rfl
@[simp] theorem stackFault_draws (s : State) (code : ErrorKind) (i : Instr) : (s.stackFault code i).draws = s.draws := rfl

/-! ## setKey -/

@[simp] theorem setKey_mem (s : State) (k : KeyIndex) (held : Bool) : (s.setKey k held).mem = s.mem := rfl
@[simp] theorem setKey_v (s : State) (k : KeyIndex) (held : Bool) : (s.setKey k held).v = s.v := rfl
@[simp] theorem setKey_i (s : State) (k : KeyIndex) (held : Bool) : (s.setKey k held).i = s.i := rfl
@[simp] theorem setKey_pc (s : State) (k : KeyIndex) (held : Bool) : (s.setKey k held).pc = s.pc := rfl
@[simp] theorem setKey_stack (s : State) (k : KeyIndex) (held : Bool) : (s.setKey k held).stack = s.stack := rfl
@[simp] theorem setKey_sp (s : State) (k : KeyIndex) (held : Bool) : (s.setKey k held).sp = s.sp := rfl
@[simp] theorem setKey_dt (s : State) (k : KeyIndex) (held : Bool) : (s.setKey k held).dt = s.dt := rfl
@[simp] theorem setKey_st (s : State) (k : KeyIndex) (held : Bool) : (s.setKey k held).st = s.st := rfl
@[simp] theorem setKey_key (s : State) (k : KeyIndex) (held : Bool) : (s.setKey k held).key = s.key.set k held := rfl
@[simp] theorem setKey_fb (s : State) (k : KeyIndex) (held : Bool) : (s.setKey k held).fb = s.fb := rfl
@[simp] theorem setKey_wait (s : State) (k : KeyIndex) (held : Bool) : (s.setKey k held).wait = s.wait := rfl
@[simp] theorem setKey_fault (s : State) (k : KeyIndex) (held : Bool) : (s.setKey k held).fault = s.fault := rfl
@[simp] theorem setKey_draws (s : State) (k : KeyIndex) (held : Bool) : (s.setKey k held).draws = s.draws := rfl

/-! ## placeWord -/

@[simp] theorem placeWord_mem (s : State) (w : Word) : (s.placeWord w).mem = s.mem.writeBytes s.fetchablePc.toNat [highByte w, lowByte w] := rfl
@[simp] theorem placeWord_v (s : State) (w : Word) : (s.placeWord w).v = s.v := rfl
@[simp] theorem placeWord_i (s : State) (w : Word) : (s.placeWord w).i = s.i := rfl
@[simp] theorem placeWord_pc (s : State) (w : Word) : (s.placeWord w).pc = s.fetchablePc := rfl
@[simp] theorem placeWord_stack (s : State) (w : Word) : (s.placeWord w).stack = s.stack := rfl
@[simp] theorem placeWord_sp (s : State) (w : Word) : (s.placeWord w).sp = s.sp := rfl
@[simp] theorem placeWord_dt (s : State) (w : Word) : (s.placeWord w).dt = s.dt := rfl
@[simp] theorem placeWord_st (s : State) (w : Word) : (s.placeWord w).st = s.st := rfl
@[simp] theorem placeWord_key (s : State) (w : Word) : (s.placeWord w).key = s.key := rfl
@[simp] theorem placeWord_fb (s : State) (w : Word) : (s.placeWord w).fb = s.fb := rfl
@[simp] theorem placeWord_wait (s : State) (w : Word) : (s.placeWord w).wait = none := rfl
@[simp] theorem placeWord_fault (s : State) (w : Word) : (s.placeWord w).fault = none := rfl
@[simp] theorem placeWord_draws (s : State) (w : Word) : (s.placeWord w).draws = s.draws := rfl

/-! ## skipIf -/

@[simp] theorem skipIf_mem (s : State) (c : Bool) : (s.skipIf c).mem = s.mem := by cases c <;> rfl
@[simp] theorem skipIf_v (s : State) (c : Bool) : (s.skipIf c).v = s.v := by cases c <;> rfl
@[simp] theorem skipIf_i (s : State) (c : Bool) : (s.skipIf c).i = s.i := by cases c <;> rfl
@[simp] theorem skipIf_pc (s : State) (c : Bool) : (s.skipIf c).pc = if c then s.pc + 2 else s.pc := by cases c <;> rfl
@[simp] theorem skipIf_stack (s : State) (c : Bool) : (s.skipIf c).stack = s.stack := by cases c <;> rfl
@[simp] theorem skipIf_sp (s : State) (c : Bool) : (s.skipIf c).sp = s.sp := by cases c <;> rfl
@[simp] theorem skipIf_dt (s : State) (c : Bool) : (s.skipIf c).dt = s.dt := by cases c <;> rfl
@[simp] theorem skipIf_st (s : State) (c : Bool) : (s.skipIf c).st = s.st := by cases c <;> rfl
@[simp] theorem skipIf_key (s : State) (c : Bool) : (s.skipIf c).key = s.key := by cases c <;> rfl
@[simp] theorem skipIf_fb (s : State) (c : Bool) : (s.skipIf c).fb = s.fb := by cases c <;> rfl
@[simp] theorem skipIf_wait (s : State) (c : Bool) : (s.skipIf c).wait = s.wait := by cases c <;> rfl
@[simp] theorem skipIf_fault (s : State) (c : Bool) : (s.skipIf c).fault = s.fault := by cases c <;> rfl
@[simp] theorem skipIf_draws (s : State) (c : Bool) : (s.skipIf c).draws = s.draws := by cases c <;> rfl

/-! ## Reading a register after an update -/

@[simp] theorem readV_advance (s : State) (r : Reg) : s.advance.readV r = s.readV r := rfl
@[simp] theorem readV_tick (s : State) (r : Reg) : s.tick.readV r = s.readV r := rfl
@[simp] theorem readV_skipIf (s : State) (c : Bool) (r : Reg) : (s.skipIf c).readV r = s.readV r := by cases c <;> rfl

/-- Read after write: the written register holds the value, every other register what it held. -/
@[simp] theorem readV_writeV (s : State) (x r : Reg) (b : Byte) :
    (s.writeV x b).readV r = if r = x then b else s.readV r := by
  simp only [State.readV, State.writeV, Fin.getElem_fin, Vector.getElem_set, Fin.ext_iff]
  simp only [eq_comm]

/-- The flag is written last: it wins in `VF` (R152). -/
@[simp] theorem readV_writeFlagged (s : State) (x r : Reg) (a b : Byte) :
    (s.writeFlagged x a b).readV r = if r = 15 then b else if r = x then a else s.readV r := by
  simp only [State.writeFlagged, readV_writeV, regVF]

end Sys2Proof.Machine
end

