-- ==== Sys2Proof/Laws/Cycle.lean ====
section
/-! SUPPORT. All that one step can do, said once (40_cycle_driver.md R100). -/

namespace Sys2Proof.Machine

/-- Every state is in exactly one of the five phases of R100, decided in this order. -/
theorem phase_cases (s : State) :
    (s.fault ≠ none ∧ s.phase = .halted) ∨
    (s.fault = none ∧ ∃ r, s.wait = some r ∧ s.phase = .waiting r) ∨
    (s.fault = none ∧ s.wait = none ∧ 0x1000 < s.pc.toNat + 2 ∧
      s.phase = .fetchFault (max s.pc.toNat 0x1000)) ∨
    (s.fault = none ∧ s.wait = none ∧ s.pc.toNat + 2 ≤ 0x1000 ∧
      (decodeWord s.fetchWord = none ∧ s.phase = .unknown s.fetchWord ∨
       ∃ i, decodeWord s.fetchWord = some i ∧ s.phase = .running i)) := by
  unfold State.phase
  cases hf : s.fault with
  | some f => simp
  | none =>
    cases hw : s.wait with
    | some r => simp
    | none =>
      cases hc : checkRange s.pc 2 with
      | some bad =>
        obtain ⟨-, h, rfl⟩ := checkRange_eq_some.1 hc
        simp [h]
      | none =>
        have h : s.pc.toNat + 2 ≤ 0x1000 := by rcases checkRange_eq_none.1 hc with h | h <;> omega
        cases hd : decodeWord s.fetchWord <;> simp [h]

/-- A step from a halted state. -/
theorem step_halted {s : State} (h : s.phase = .halted) : step s = .next s := by rw [step, cycle, h]

/-- A step from a waiting state. -/
theorem step_waiting {s : State} {r : Reg} (h : s.phase = .waiting r) : step s = .next (s.waitCycle r) := by
  rw [step, cycle, h]

/-- A step whose fetch is out of bounds. -/
theorem step_fetchFault {s : State} {bad : Nat} (h : s.phase = .fetchFault bad) :
    step s = .next (s.takeFault .outOfBoundsAccess none (some .fetch) (some bad)) := by rw [step, cycle, h]

/-- A step over an unknown opcode. -/
theorem step_unknown {s : State} {w : Word} (h : s.phase = .unknown w) : step s = .next s.advance.tick := by
  rw [step, cycle, h]

/-- A step that runs a handler. -/
theorem step_running {s : State} {i : Instr} (h : s.phase = .running i) : step s = endCycle (exec i s) := by
  rw [step, cycle, h]

/-- The end of a cycle answers a next state only for a handler that did. -/
theorem endCycle_eq_next {o : Result} {t : State} (h : endCycle o = .next t) :
    ∃ u, o = .next u ∧ t = if u.fault.isSome then u else u.tick := by
  cases o with
  | next u => exact ⟨u, rfl, (Host.Outcome.next.inj h).symm⟩
  | fault f => exact nomatch f
  | refused r => simp [endCycle] at h

/-- If a step answers `t`, one of five things happened (R100). -/
theorem step_cases {s t : State} (h : step s = .next t) :
    (s.fault ≠ none ∧ t = s) ∨
    (s.fault = none ∧ ∃ r, s.wait = some r ∧ t = s.waitCycle r) ∨
    (s.fault = none ∧ s.wait = none ∧ 0x1000 < s.pc.toNat + 2 ∧
      t = s.takeFault .outOfBoundsAccess none (some .fetch) (some (max s.pc.toNat 0x1000))) ∨
    (s.fault = none ∧ s.wait = none ∧ s.pc.toNat + 2 ≤ 0x1000 ∧ decodeWord s.fetchWord = none ∧
      t = s.advance.tick) ∨
    (s.fault = none ∧ s.wait = none ∧ s.pc.toNat + 2 ≤ 0x1000 ∧ ∃ i u, decodeWord s.fetchWord = some i ∧
      exec i s = .next u ∧ t = if u.fault.isSome then u else u.tick) := by
  rcases phase_cases s with ⟨hf, hp⟩ | ⟨hf, r, hw, hp⟩ | ⟨hf, hw, hr, hp⟩ | ⟨hf, hw, hr, ⟨hd, hp⟩ | ⟨i, hd, hp⟩⟩
  · rw [step_halted hp] at h
    exact .inl ⟨hf, (Host.Outcome.next.inj h).symm⟩
  · rw [step_waiting hp] at h
    exact .inr (.inl ⟨hf, r, hw, (Host.Outcome.next.inj h).symm⟩)
  · rw [step_fetchFault hp] at h
    exact .inr (.inr (.inl ⟨hf, hw, hr, (Host.Outcome.next.inj h).symm⟩))
  · rw [step_unknown hp] at h
    exact .inr (.inr (.inr (.inl ⟨hf, hw, hr, hd, (Host.Outcome.next.inj h).symm⟩)))
  · rw [step_running hp] at h
    obtain ⟨u, hu, ht⟩ := endCycle_eq_next h
    exact .inr (.inr (.inr (.inr ⟨hf, hw, hr, i, u, hd, hu, ht⟩)))

end Sys2Proof.Machine
end

