-- ==== Sys2Proof/Laws/Draw.lean ====
section
/-! SUPPORT. What drawing does to each pixel and to the collision (43_draw.md R170–R176). -/

namespace Sys2Proof.Machine

/-- Flipping a pixel flips it and no other. -/
theorem pixel_flip (fb : Framebuffer) (r r' : Fin 32) (c c' : Fin 64) :
    (fb.flip r c).pixel r' c' = (fb.pixel r' c' ^^ decide (r' = r ∧ c' = c)) := by
  unfold Framebuffer.flip Framebuffer.pixel
  simp only [Fin.getElem_fin, Vector.getElem_set, Fin.val_inj]
  by_cases hr : r = r'
  · subst hr
    simp only [if_true, BitVec.getLsbD_xor, BitVec.getLsbD_shiftLeft, BitVec.getLsbD_one, true_and]
    congr 1
    have := c.isLt; have := c'.isLt
    by_cases h : c' = c
    · subst h; simp
    · have h' : c'.val ≠ c.val := fun e => h (Fin.ext e)
      simp only [h, decide_false]
      simp
      omega
  · simp [hr, Ne.symm hr]

/-- Eight columns are distinct modulo 64 (R176). -/
theorem wrapCol_inj {px : Byte} {a b : Nat} (ha : a < 64) (hb : b < 64) (h : wrapCol px a = wrapCol px b) : a = b := by
  simp only [wrapCol, Fin.ext_iff, Fin.val_ofNat] at h; omega

/-- At most 32 rows are distinct modulo 32 (R176). -/
theorem wrapRow_inj {py : Byte} {a b : Nat} (ha : a < 32) (hb : b < 32) (h : wrapRow py a = wrapRow py b) : a = b := by
  simp only [wrapRow, Fin.ext_iff, Fin.val_ofNat] at h; omega

/-- Some set bit among the first `m` columns of the sprite row falls on column `c`. -/
abbrev colHit (px sprite : Byte) (m : Nat) (c : Fin 64) : Prop :=
  ∃ col < m, spriteBit sprite col = true ∧ wrapCol px col = c

/-- The first `m` columns of a sprite row: each pixel they hit is flipped once, and the collision latches a hit
pixel that was on (R173). -/
theorem foldl_drawPixel (px py sprite : Byte) (row : Nat) (fb : Framebuffer) (k : Bool) : ∀ m ≤ 64,
    let d := (List.range m).foldl (fun c col => drawPixel px py sprite row col c) (fb, k)
    (∀ r c, d.1.pixel r c = (fb.pixel r c ^^ decide (r = wrapRow py row ∧ colHit px sprite m c))) ∧
    d.2 = (k || decide (∃ c, colHit px sprite m c ∧ fb.pixel (wrapRow py row) c = true)) := by
  intro m
  induction m with
  | zero => intro _; simp [colHit]
  | succ m ih =>
    intro hm
    obtain ⟨ih1, ih2⟩ := ih (by omega)
    have hfresh : ¬ colHit px sprite m (wrapCol px m) := by
      rintro ⟨col, hcol, -, e⟩
      have := wrapCol_inj (by omega) (by omega) e
      omega
    have hsucc : ∀ c, colHit px sprite (m + 1) c ↔
        colHit px sprite m c ∨ (spriteBit sprite m = true ∧ wrapCol px m = c) := by
      intro c
      constructor
      · rintro ⟨col, hcol, hb, e⟩
        rcases Nat.lt_succ_iff_lt_or_eq.1 hcol with h | rfl
        · exact .inl ⟨col, h, hb, e⟩
        · exact .inr ⟨hb, e⟩
      · rintro (⟨col, hcol, hb, e⟩ | ⟨hb, e⟩)
        · exact ⟨col, by omega, hb, e⟩
        · exact ⟨m, by omega, hb, e⟩
    simp only [List.range_succ, List.foldl_append, List.foldl_cons, List.foldl_nil]
    generalize hd : (List.range m).foldl (fun c col => drawPixel px py sprite row col c) (fb, k) = d at ih1 ih2
    by_cases hb : spriteBit sprite m = true
    · simp only [drawPixel, hb, if_true, hsucc, true_and]
      constructor
      · intro r c
        rw [pixel_flip, ih1]
        by_cases hr : r = wrapRow py row
        · by_cases hc : c = wrapCol px m
          · subst hc; simp [hr, hfresh]
          · simp [hr, hc, Ne.symm hc]
        · simp [hr]
      · rw [ih1, ih2]
        simp only [hfresh, and_false, decide_false, Bool.xor_false, Bool.or_assoc]
        congr 1
        rw [Bool.eq_iff_iff]
        simp only [Bool.or_eq_true, decide_eq_true_eq]
        constructor
        · rintro (⟨c, h, hp⟩ | hp)
          · exact ⟨c, .inl h, hp⟩
          · exact ⟨_, .inr rfl, hp⟩
        · rintro ⟨c, h | rfl, hp⟩
          · exact .inl ⟨c, h, hp⟩
          · exact .inr hp
    · rw [Bool.not_eq_true] at hb
      simp only [drawPixel, hb, hsucc, Bool.false_eq_true, if_false, false_and, or_false]
      exact ⟨ih1, ih2⟩

/-- The pixel at row `r` and column `c` is under a set bit of the `n`-row sprite at `base` (R170–R172). -/
abbrev spriteHit (m : Memory) (base n : Nat) (px py : Byte) (r : Fin 32) (c : Fin 64) : Prop :=
  ∃ row < n, wrapRow py row = r ∧ colHit px (m.read (base + row)) 8 c

/-- Drawing an `n`-row sprite flips exactly the pixels under its set bits, and collides exactly when one of them
was on: the order of the loop does not matter (R176). -/
theorem drawSprite_spec (m : Memory) (base : Nat) (px py : Byte) (fb : Framebuffer) : ∀ n ≤ 32,
    (∀ r c, (drawSprite m base n px py fb).1.pixel r c =
      (fb.pixel r c ^^ decide (spriteHit m base n px py r c))) ∧
    (drawSprite m base n px py fb).2 = decide (∃ r c, spriteHit m base n px py r c ∧ fb.pixel r c = true) := by
  intro n
  induction n with
  | zero => intro _; simp [drawSprite, spriteHit]
  | succ n ih =>
    intro hn
    obtain ⟨ih1, ih2⟩ := ih (by omega)
    have hfresh : ∀ c, ¬ spriteHit m base n px py (wrapRow py n) c := by
      rintro c ⟨row, hrow, e, -⟩
      have := wrapRow_inj (by omega) (by omega) e
      omega
    have hsucc : ∀ r c, spriteHit m base (n + 1) px py r c ↔
        spriteHit m base n px py r c ∨ (r = wrapRow py n ∧ colHit px (m.read (base + n)) 8 c) := by
      intro r c
      constructor
      · rintro ⟨row, hrow, e, h⟩
        rcases Nat.lt_succ_iff_lt_or_eq.1 hrow with h' | rfl
        · exact .inl ⟨row, h', e, h⟩
        · exact .inr ⟨e.symm, h⟩
      · rintro (⟨row, hrow, e, h⟩ | ⟨e, h⟩)
        · exact ⟨row, by omega, e, h⟩
        · exact ⟨n, by omega, e.symm, h⟩
    have hstep : drawSprite m base (n + 1) px py fb =
        drawRow px py (m.read (base + n)) n (drawSprite m base n px py fb) := by
      simp [drawSprite, List.range_succ]
    obtain ⟨h1, h2⟩ := foldl_drawPixel px py (m.read (base + n)) n (drawSprite m base n px py fb).1
      (drawSprite m base n px py fb).2 8 (by omega)
    rw [hstep, drawRow, ← Prod.mk.eta (p := drawSprite m base n px py fb)]
    constructor
    · intro r c
      rw [h1, ih1]
      simp only [hsucc]
      by_cases hr : r = wrapRow py n
      · subst hr; simp [hfresh c]
      · simp [hr]
    · rw [h2, ih2]
      rw [Bool.eq_iff_iff]
      simp only [Bool.or_eq_true, decide_eq_true_eq, hsucc, ih1, hfresh, decide_false, Bool.xor_false]
      constructor
      · rintro (⟨r, c, h, hp⟩ | ⟨c, h, hp⟩)
        · exact ⟨r, c, .inl h, hp⟩
        · exact ⟨_, c, .inr ⟨rfl, h⟩, hp⟩
      · rintro ⟨r, c, h | ⟨rfl, h⟩, hp⟩
        · exact .inl ⟨r, c, h, hp⟩
        · exact .inr ⟨c, h, hp⟩

/-- Two framebuffers with the same pixels are the same. -/
theorem framebuffer_ext {fb fb' : Framebuffer} (h : ∀ r c, fb.pixel r c = fb'.pixel r c) : fb = fb' := by
  apply Vector.ext
  intro r hr
  apply BitVec.eq_of_getLsbD_eq
  intro c hc
  exact h ⟨r, hr⟩ ⟨c, hc⟩

end Sys2Proof.Machine
end

