-- ==== Sys2Proof/Laws/Encoding.lean ====
section
/-! SUPPORT. The fields of a packed word and the word of its fields: the small lemmas behind decoding and
encoding. -/

namespace Sys2Proof

@[simp] theorem regOf_selOf (r : Reg) : regOf (selOf r) = r := rfl
@[simp] theorem selOf_regOf (b : Nibble) : selOf (regOf b) = b := rfl

/-! ## Fields of packed words -/

@[simp] theorem opField_packXyn (op x y n : Nibble) : opField (packXyn op x y n) = op := by
  apply BitVec.eq_of_getLsbD_eq; intro i hi
  simp only [opField, packXyn, BitVec.getLsbD_extractLsb', BitVec.getLsbD_append]; interval_cases i <;> simp

@[simp] theorem xField_packXyn (op x y n : Nibble) : xField (packXyn op x y n) = x := by
  apply BitVec.eq_of_getLsbD_eq; intro i hi
  simp only [xField, packXyn, BitVec.getLsbD_extractLsb', BitVec.getLsbD_append]; interval_cases i <;> simp

@[simp] theorem yField_packXyn (op x y n : Nibble) : yField (packXyn op x y n) = y := by
  apply BitVec.eq_of_getLsbD_eq; intro i hi
  simp only [yField, packXyn, BitVec.getLsbD_extractLsb', BitVec.getLsbD_append]; interval_cases i <;> simp

@[simp] theorem nField_packXyn (op x y n : Nibble) : nField (packXyn op x y n) = n := by
  apply BitVec.eq_of_getLsbD_eq; intro i hi
  simp only [nField, packXyn, BitVec.getLsbD_extractLsb', BitVec.getLsbD_append]; interval_cases i <;> simp

@[simp] theorem opField_packXkk (op x : Nibble) (kk : Byte) : opField (packXkk op x kk) = op := by
  apply BitVec.eq_of_getLsbD_eq; intro i hi
  simp only [opField, packXkk, BitVec.getLsbD_extractLsb', BitVec.getLsbD_append]; interval_cases i <;> simp

@[simp] theorem xField_packXkk (op x : Nibble) (kk : Byte) : xField (packXkk op x kk) = x := by
  apply BitVec.eq_of_getLsbD_eq; intro i hi
  simp only [xField, packXkk, BitVec.getLsbD_extractLsb', BitVec.getLsbD_append]; interval_cases i <;> simp

@[simp] theorem kkField_packXkk (op x : Nibble) (kk : Byte) : kkField (packXkk op x kk) = kk := by
  apply BitVec.eq_of_getLsbD_eq; intro i hi
  simp only [kkField, packXkk, BitVec.getLsbD_extractLsb', BitVec.getLsbD_append]; interval_cases i <;> simp

@[simp] theorem opField_packNnn (op : Nibble) (nnn : Addr) : opField (packNnn op nnn) = op := by
  apply BitVec.eq_of_getLsbD_eq; intro i hi
  simp only [opField, packNnn, BitVec.getLsbD_extractLsb', BitVec.getLsbD_append]; interval_cases i <;> simp

@[simp] theorem nnnField_packNnn (op : Nibble) (nnn : Addr) : nnnField (packNnn op nnn) = nnn := by
  apply BitVec.eq_of_getLsbD_eq; intro i hi
  simp only [nnnField, packNnn, BitVec.getLsbD_extractLsb', BitVec.getLsbD_append]; interval_cases i <;> simp

/-! ## A word is packed from its fields -/

theorem packXyn_fields (w : Word) : packXyn (opField w) (xField w) (yField w) (nField w) = w := by
  apply BitVec.eq_of_getLsbD_eq; intro i hi
  simp only [opField, xField, yField, nField, packXyn, BitVec.getLsbD_extractLsb', BitVec.getLsbD_append]
  interval_cases i <;> simp

theorem packXkk_fields (w : Word) : packXkk (opField w) (xField w) (kkField w) = w := by
  apply BitVec.eq_of_getLsbD_eq; intro i hi
  simp only [opField, xField, kkField, packXkk, BitVec.getLsbD_extractLsb', BitVec.getLsbD_append]
  interval_cases i <;> simp

theorem packNnn_fields (w : Word) : packNnn (opField w) (nnnField w) = w := by
  apply BitVec.eq_of_getLsbD_eq; intro i hi
  simp only [opField, nnnField, packNnn, BitVec.getLsbD_extractLsb', BitVec.getLsbD_append]
  interval_cases i <;> simp

/-- The two bytes of a word, put together again, are the word (R53). -/
@[simp] theorem wordOfBytes_high_low (w : Word) : wordOfBytes (highByte w) (lowByte w) = w := by
  apply BitVec.eq_of_getLsbD_eq; intro i hi
  simp only [wordOfBytes, highByte, lowByte, BitVec.getLsbD_extractLsb', BitVec.getLsbD_append]
  interval_cases i <;> simp

/-! ## A row's mask picks the fields the decoder dispatches on -/

theorem opField_and (w m : Word) : opField (w &&& m) = opField w &&& opField m := BitVec.extractLsb'_and
theorem kkField_and (w m : Word) : kkField (w &&& m) = kkField w &&& kkField m := BitVec.extractLsb'_and
theorem nField_and (w m : Word) : nField (w &&& m) = nField w &&& nField m := BitVec.extractLsb'_and

/-- A word of a row of mask `F000` has the row's leading nibble. -/
theorem opField_of_F000 {w v : Word} (h : w &&& 0xF000 = v) : opField w = opField v := by
  have := congrArg opField h
  rwa [opField_and, show opField 0xF000 = BitVec.allOnes 4 by decide, BitVec.and_allOnes] at this

theorem opField_of_F00F {w v : Word} (h : w &&& 0xF00F = v) : opField w = opField v := by
  have := congrArg opField h
  rwa [opField_and, show opField 0xF00F = BitVec.allOnes 4 by decide, BitVec.and_allOnes] at this

theorem nField_of_F00F {w v : Word} (h : w &&& 0xF00F = v) : nField w = nField v := by
  have := congrArg nField h
  rwa [nField_and, show nField 0xF00F = BitVec.allOnes 4 by decide, BitVec.and_allOnes] at this

theorem opField_of_F0FF {w v : Word} (h : w &&& 0xF0FF = v) : opField w = opField v := by
  have := congrArg opField h
  rwa [opField_and, show opField 0xF0FF = BitVec.allOnes 4 by decide, BitVec.and_allOnes] at this

theorem kkField_of_F0FF {w v : Word} (h : w &&& 0xF0FF = v) : kkField w = kkField v := by
  have := congrArg kkField h
  rwa [kkField_and, show kkField 0xF0FF = BitVec.allOnes 8 by decide, BitVec.and_allOnes] at this

/-! ## Packed words under the masks of R82 -/

theorem append2_and (a a' : Nibble) {k : Nat} (b b' : BitVec k) :
    (a ++ b) &&& (a' ++ b') = (a &&& a') ++ (b &&& b') := by
  rw [← BitVec.and_append]

theorem append3_and (a x a' x' : Nibble) {k : Nat} (b b' : BitVec k) :
    (a ++ x ++ b) &&& (a' ++ x' ++ b') = (a &&& a') ++ (x &&& x') ++ (b &&& b') := by
  rw [← BitVec.and_append, ← BitVec.and_append]

theorem append4_and (a x y n a' x' y' n' : Nibble) :
    (a ++ x ++ y ++ n) &&& (a' ++ x' ++ y' ++ n') = (a &&& a') ++ (x &&& x') ++ (y &&& y') ++ (n &&& n') := by
  rw [← BitVec.and_append, ← BitVec.and_append, ← BitVec.and_append]

theorem packXyn_and (a x y n a' x' y' n' : Nibble) :
    packXyn a x y n &&& packXyn a' x' y' n' = packXyn (a &&& a') (x &&& x') (y &&& y') (n &&& n') :=
  append4_and a x y n a' x' y' n'

theorem packXkk_and (a x a' x' : Nibble) (k k' : Byte) :
    packXkk a x k &&& packXkk a' x' k' = packXkk (a &&& a') (x &&& x') (k &&& k') :=
  append3_and a x a' x' k k'

theorem packNnn_and (a a' : Nibble) (n n' : Addr) :
    packNnn a n &&& packNnn a' n' = packNnn (a &&& a') (n &&& n') :=
  append2_and a a' n n'

theorem nibble_and_zero (b : Nibble) : b &&& 0 = 0 := BitVec.and_zero
theorem byte_and_zero (b : Byte) : b &&& 0 = 0 := BitVec.and_zero
theorem addr_and_zero (b : Addr) : b &&& 0 = 0 := BitVec.and_zero

@[simp] theorem packXyn_and_F000 (op x y n : Nibble) : packXyn op x y n &&& 0xF000 = packXyn op 0 0 0 :=
  (packXyn_and op x y n (BitVec.allOnes 4) 0 0 0).trans (by simp only [BitVec.and_allOnes, nibble_and_zero])

@[simp] theorem packXyn_and_F00F (op x y n : Nibble) : packXyn op x y n &&& 0xF00F = packXyn op 0 0 n :=
  (packXyn_and op x y n (BitVec.allOnes 4) 0 0 (BitVec.allOnes 4)).trans (by simp only [BitVec.and_allOnes, nibble_and_zero])

@[simp] theorem packXkk_and_F000 (op x : Nibble) (kk : Byte) : packXkk op x kk &&& 0xF000 = packXkk op 0 0 :=
  (packXkk_and op x (BitVec.allOnes 4) 0 kk 0).trans (by simp only [BitVec.and_allOnes, nibble_and_zero, byte_and_zero])

@[simp] theorem packXkk_and_F0FF (op x : Nibble) (kk : Byte) : packXkk op x kk &&& 0xF0FF = packXkk op 0 kk :=
  (packXkk_and op x (BitVec.allOnes 4) 0 kk (BitVec.allOnes 8)).trans (by simp only [BitVec.and_allOnes, nibble_and_zero])

@[simp] theorem packNnn_and_F000 (op : Nibble) (nnn : Addr) : packNnn op nnn &&& 0xF000 = packNnn op 0 :=
  (packNnn_and op (BitVec.allOnes 4) nnn 0).trans (by simp only [BitVec.and_allOnes, addr_and_zero])

end Sys2Proof
end

