-- ==== Sys2Proof/Laws/Ops.lean ====
section
/-! SUPPORT. What each shared operation does, said once: the proofs cite these and unfold nothing. -/

namespace Sys2Proof.Machine

/-! ## Accesses to memory -/

/-- An access that is empty or ends inside memory completes (R58). -/
theorem accessing_of_fits {i : Instr} {access : AccessKind} {base : Word} {count : Nat} {s done : State}
    (h : count = 0 ∨ base.toNat + count ≤ 0x1000) : accessing i access base count s done = .next done := by
  rw [accessing, checkRange_eq_none.2 h]

/-- An access that passes `0xFFF` takes the fault (R213). -/
theorem accessing_of_passes {i : Instr} {access : AccessKind} {base : Word} {count : Nat} {s done : State}
    (h0 : 0 < count) (h : 0x1000 < base.toNat + count) :
    accessing i access base count s done =
      .next (s.takeFault .outOfBoundsAccess (some (encode i)) (some access) (some (max base.toNat 0x1000))) := by
  rw [accessing, checkRange_eq_some.2 ⟨h0, h, rfl⟩]

/-- All an access can answer. -/
theorem accessing_cases {i : Instr} {access : AccessKind} {base : Word} {count : Nat} {s done t : State}
    (h : accessing i access base count s done = .next t) :
    (count = 0 ∨ base.toNat + count ≤ 0x1000) ∧ t = done ∨
    (0 < count ∧ 0x1000 < base.toNat + count) ∧
      t = s.takeFault .outOfBoundsAccess (some (encode i)) (some access) (some (max base.toNat 0x1000)) := by
  by_cases hf : count = 0 ∨ base.toNat + count ≤ 0x1000
  · rw [accessing_of_fits hf] at h
    exact .inl ⟨hf, (Host.Outcome.next.inj h).symm⟩
  · have hp : 0 < count ∧ 0x1000 < base.toNat + count := by omega
    rw [accessing_of_passes hp.1 hp.2] at h
    exact .inr ⟨hp, (Host.Outcome.next.inj h).symm⟩

/-! ## Registers, keys, timers -/

/-- The number of a block register (R73). -/
@[simp] theorem blockReg_val (r : Reg) : blockReg r.val = r := by
  simp [blockReg]

/-- The lowest held key is held, and no lower one is (R102, R192). -/
theorem lowestKey_eq_some {s : State} {k : KeyIndex} :
    s.lowestKey = some k ↔ s.keyHeld k = true ∧ ∀ j < k, s.keyHeld j = false := by
  simp only [State.lowestKey]
  rw [List.find?_eq_some_iff_getElem]
  constructor
  · rintro ⟨hk, i, hi, rfl, hlt⟩
    refine ⟨hk, fun j hj => ?_⟩
    have := hlt j.val (by simpa [Fin.lt_def] using hj)
    simpa using this
  · rintro ⟨hk, hlt⟩
    refine ⟨hk, k.val, by simp, by simp, fun j hj => ?_⟩
    simpa using hlt ⟨j, by omega⟩ hj

/-- There is none exactly when no key is held (R102, R192). -/
theorem lowestKey_eq_none {s : State} : s.lowestKey = none ↔ ∀ k, s.keyHeld k = false := by
  simp [State.lowestKey, List.find?_eq_none]

/-- The tick floors at zero (R106). -/
theorem toNat_tickByte (b : Byte) : (tickByte b).toNat = b.toNat - 1 := by
  unfold tickByte
  split
  · next h => subst h; rfl
  · next h =>
    have : b.toNat ≠ 0 := fun h' => h (BitVec.eq_of_toNat_eq (by simpa using h'))
    rw [BitVec.toNat_sub]
    have := b.isLt
    simp only [BitVec.ofNat_eq_ofNat, BitVec.toNat_ofNat]
    omega

/-! ## Blocks (45_register_timer_memory.md) -/

@[simp] theorem bcdDigits_length (b : Byte) : (bcdDigits b).length = 3 := rfl

@[simp] theorem blockBytes_length (s : State) (x : Reg) : (s.blockBytes x).length = x.val + 1 := by
  simp [State.blockBytes]

theorem blockBytes_getElem (s : State) (x r : Reg) (h : r ≤ x) :
    (s.blockBytes x)[r.val]'(by simpa using Nat.lt_succ_of_le h) = s.readV r := by
  simp [State.blockBytes]

/-- A fold of register writes over `0..n-1` changes `v` alone, and each register below `n` once. -/
theorem foldl_writeV (f : Nat → Byte) (s : State) : ∀ n ≤ 16,
    (List.range n).foldl (fun t j => t.writeV (blockReg j) (f j)) s =
      { s with v := Vector.ofFn fun r : Fin 16 => if r.val < n then f r.val else s.readV r } := by
  intro n
  induction n with
  | zero =>
    intro _
    cases s
    simp [State.readV]
  | succ n ih =>
    intro hn
    rw [List.range_succ, List.foldl_append, ih (by omega)]
    simp only [List.foldl_cons, List.foldl_nil, State.writeV]
    congr 1
    apply Vector.ext
    intro r hr
    simp only [Vector.getElem_set, Vector.getElem_ofFn, blockReg, Fin.val_ofNat, Nat.mod_eq_of_lt (show n < 16 by omega)]
    by_cases h : n = r
    · subst h; simp
    · rw [if_neg h]; simp only [show (r < n ↔ r < n + 1) by omega]

/-- A block load changes `v` alone (R200, R201). -/
theorem loadBlock_eq (s : State) (x : Reg) (base : Nat) :
    s.loadBlock x base =
      { s with v := Vector.ofFn fun r : Fin 16 => if r ≤ x then s.mem.read (base + r) else s.readV r } := by
  rw [State.loadBlock, foldl_writeV _ _ _ (by omega)]
  congr 1
  apply Vector.ext
  intro r hr
  simp only [Vector.getElem_ofFn, Fin.le_def, Nat.lt_succ_iff]

theorem readV_loadBlock (s : State) (x r : Reg) (base : Nat) :
    (s.loadBlock x base).readV r = if r ≤ x then s.mem.read (base + r) else s.readV r := by
  simp [loadBlock_eq, State.readV]

end Sys2Proof.Machine
end

