-- ==== Sys2Proof/Laws/Exec.lean ====
section
/-! SUPPORT. The meanings that branch, one equation a branch; a step over a decoded instruction; runs. The other
meanings answer `.next` by `rfl`. -/

namespace Sys2Proof.Machine

/-! ## The branches of `RET`, `CALL` and `LD Vx,K` -/

/-- `RET` on an empty stack (R121, R217). -/
theorem exec_ret_of_empty {s : State} (g : Nibble) (h : s.sp.val = 0) :
    exec (.ret g) s = .next (s.stackFault .stackUnderflow (.ret g)) := by
  have h' : s.sp = 0 := Fin.ext h
  rw [exec, execRet, if_pos h']

/-- `RET` otherwise (R121). -/
theorem exec_ret_of_nonempty {s : State} (g : Nibble) (h : s.sp.val ≠ 0) :
    exec (.ret g) s = .next s.advance.popPc := by
  have h' : s.sp ≠ 0 := fun e => h (congrArg Fin.val e)
  rw [exec, execRet, if_neg h']

/-- `CALL` on a full stack (R123, R217). -/
theorem exec_call_of_full {s : State} (nnn : Addr) (h : s.sp.val = 16) :
    exec (.call nnn) s = .next (s.stackFault .stackOverflow (.call nnn)) := by
  have h' : s.sp = 16 := Fin.ext h
  rw [exec, execCall, if_pos h']

/-- `CALL` otherwise (R123). -/
theorem exec_call_of_room {s : State} (nnn : Addr) (h : s.sp.val < 16) :
    exec (.call nnn) s = .next { s.advance.push s.advance.pc with pc := zextAddr nnn } := by
  have h' : s.sp ≠ 16 := fun e => absurd (congrArg Fin.val e) (by show s.sp.val ≠ 16; omega)
  rw [exec, execCall, if_neg h']

/-- `LD Vx,K` with a held key (R192). -/
theorem exec_ldXK_of_held {s : State} {k : KeyIndex} (x : Reg) (h : s.lowestKey = some k) :
    exec (.ldXK x) s = .next (s.advance.writeV x (keyByte k)) := by
  rw [exec, execLdXK, h]

/-- `LD Vx,K` with none (R192). -/
theorem exec_ldXK_of_none {s : State} (x : Reg) (h : s.lowestKey = none) :
    exec (.ldXK x) s = .next { s.advance with wait := some x } := by
  rw [exec, execLdXK, h]

/-- A key's index as a byte is the index (R192). -/
@[simp] theorem toNat_keyByte (k : KeyIndex) : (keyByte k).toNat = k.val := by
  have := k.isLt
  simp only [keyByte, BitVec.toNat_ofNat]
  omega

/-- Two advances are the skip's four (R129). -/
theorem add_two_two (p : Word) : p + 2 + 2 = p + 4 := by rw [BitVec.add_assoc]; rfl

/-! ## Steps and runs -/

/-- The cycle of a core that is neither halted nor waiting, over a word that decodes (R100). -/
theorem step_of_decodes {s : State} {i : Instr} (hf : s.fault = none) (hw : s.wait = none)
    (hp : s.pc.toNat + 2 ≤ 0x1000) (hd : decodeWord s.fetchWord = some i) : step s = endCycle (exec i s) := by
  rcases phase_cases s with ⟨h, -⟩ | ⟨-, r, h, -⟩ | ⟨-, -, h, -⟩ | ⟨-, -, -, ⟨h, -⟩ | ⟨j, h, hj⟩⟩
  · exact absurd hf h
  · rw [hw] at h; cases h
  · omega
  · rw [hd] at h; cases h
  · rw [hd] at h; cases h; exact step_running hj

/-- Whether or not the handler faulted, the end of the cycle keeps the record. -/
theorem fault_endCycle (u : State) : (if u.fault.isSome then u else u.tick).fault = u.fault := by split <;> rfl

/-- One step of a run, taken off its front. -/
theorem run_succ {M : Host.Core} {s t : M.State} (n : Nat) (h : M.step s = .next t) :
    M.run (n + 1) s = M.run n t := by
  simp only [Host.Core.run, h]

end Sys2Proof.Machine
end

