-- ==== Sys2Proof/Laws/PerInstr.lean ====
section
/-! SUPPORT. Facts about an instruction as syntax, one lemma per constructor. -/

namespace Sys2Proof.Laws

/-- The encoding of the instruction is a word of its own row of 30_encoding.md R82, whose mnemonic is the row's. -/
def RowMatch.Statement (i : Instr) : Prop := ∃ r, rowOf i = some r ∧ encode i &&& r.mask = r.value

theorem RowMatch.cls (ignored : Nibble) : RowMatch.Statement (.cls ignored) :=
  ⟨_, rfl, packXkk_and_F0FF _ _ _⟩
theorem RowMatch.ret (ignored : Nibble) : RowMatch.Statement (.ret ignored) :=
  ⟨_, rfl, packXkk_and_F0FF _ _ _⟩
theorem RowMatch.jp (nnn : Addr) : RowMatch.Statement (.jp nnn) :=
  ⟨_, rfl, packNnn_and_F000 _ _⟩
theorem RowMatch.call (nnn : Addr) : RowMatch.Statement (.call nnn) :=
  ⟨_, rfl, packNnn_and_F000 _ _⟩
theorem RowMatch.seKk (x : Reg) (kk : Byte) : RowMatch.Statement (.seKk x kk) :=
  ⟨_, rfl, packXkk_and_F000 _ _ _⟩
theorem RowMatch.sneKk (x : Reg) (kk : Byte) : RowMatch.Statement (.sneKk x kk) :=
  ⟨_, rfl, packXkk_and_F000 _ _ _⟩
theorem RowMatch.seXy (x : Reg) (y : Reg) (ignored : Nibble) : RowMatch.Statement (.seXy x y ignored) :=
  ⟨_, rfl, packXyn_and_F000 _ _ _ _⟩
theorem RowMatch.ldKk (x : Reg) (kk : Byte) : RowMatch.Statement (.ldKk x kk) :=
  ⟨_, rfl, packXkk_and_F000 _ _ _⟩
theorem RowMatch.addKk (x : Reg) (kk : Byte) : RowMatch.Statement (.addKk x kk) :=
  ⟨_, rfl, packXkk_and_F000 _ _ _⟩
theorem RowMatch.ldXy (x : Reg) (y : Reg) : RowMatch.Statement (.ldXy x y) :=
  ⟨_, rfl, packXyn_and_F00F _ _ _ _⟩
theorem RowMatch.orXy (x : Reg) (y : Reg) : RowMatch.Statement (.orXy x y) :=
  ⟨_, rfl, packXyn_and_F00F _ _ _ _⟩
theorem RowMatch.andXy (x : Reg) (y : Reg) : RowMatch.Statement (.andXy x y) :=
  ⟨_, rfl, packXyn_and_F00F _ _ _ _⟩
theorem RowMatch.xorXy (x : Reg) (y : Reg) : RowMatch.Statement (.xorXy x y) :=
  ⟨_, rfl, packXyn_and_F00F _ _ _ _⟩
theorem RowMatch.addXy (x : Reg) (y : Reg) : RowMatch.Statement (.addXy x y) :=
  ⟨_, rfl, packXyn_and_F00F _ _ _ _⟩
theorem RowMatch.sub (x : Reg) (y : Reg) : RowMatch.Statement (.sub x y) :=
  ⟨_, rfl, packXyn_and_F00F _ _ _ _⟩
theorem RowMatch.shr (x : Reg) (yIgnored : Nibble) : RowMatch.Statement (.shr x yIgnored) :=
  ⟨_, rfl, packXyn_and_F00F _ _ _ _⟩
theorem RowMatch.subn (x : Reg) (y : Reg) : RowMatch.Statement (.subn x y) :=
  ⟨_, rfl, packXyn_and_F00F _ _ _ _⟩
theorem RowMatch.shl (x : Reg) (yIgnored : Nibble) : RowMatch.Statement (.shl x yIgnored) :=
  ⟨_, rfl, packXyn_and_F00F _ _ _ _⟩
theorem RowMatch.sneXy (x : Reg) (y : Reg) (ignored : Nibble) : RowMatch.Statement (.sneXy x y ignored) :=
  ⟨_, rfl, packXyn_and_F000 _ _ _ _⟩
theorem RowMatch.ldI (nnn : Addr) : RowMatch.Statement (.ldI nnn) :=
  ⟨_, rfl, packNnn_and_F000 _ _⟩
theorem RowMatch.jpV0 (nnn : Addr) : RowMatch.Statement (.jpV0 nnn) :=
  ⟨_, rfl, packNnn_and_F000 _ _⟩
theorem RowMatch.rnd (x : Reg) (kk : Byte) : RowMatch.Statement (.rnd x kk) :=
  ⟨_, rfl, packXkk_and_F000 _ _ _⟩
theorem RowMatch.drw (x : Reg) (y : Reg) (n : Nat) : RowMatch.Statement (.drw x y n) :=
  ⟨_, rfl, packXyn_and_F000 _ _ _ _⟩
theorem RowMatch.skp (x : Reg) : RowMatch.Statement (.skp x) :=
  ⟨_, rfl, packXkk_and_F0FF _ _ _⟩
theorem RowMatch.sknp (x : Reg) : RowMatch.Statement (.sknp x) :=
  ⟨_, rfl, packXkk_and_F0FF _ _ _⟩
theorem RowMatch.ldXDt (x : Reg) : RowMatch.Statement (.ldXDt x) :=
  ⟨_, rfl, packXkk_and_F0FF _ _ _⟩
theorem RowMatch.ldXK (x : Reg) : RowMatch.Statement (.ldXK x) :=
  ⟨_, rfl, packXkk_and_F0FF _ _ _⟩
theorem RowMatch.ldDtX (x : Reg) : RowMatch.Statement (.ldDtX x) :=
  ⟨_, rfl, packXkk_and_F0FF _ _ _⟩
theorem RowMatch.ldStX (x : Reg) : RowMatch.Statement (.ldStX x) :=
  ⟨_, rfl, packXkk_and_F0FF _ _ _⟩
theorem RowMatch.addIX (x : Reg) : RowMatch.Statement (.addIX x) :=
  ⟨_, rfl, packXkk_and_F0FF _ _ _⟩
theorem RowMatch.ldFX (x : Reg) : RowMatch.Statement (.ldFX x) :=
  ⟨_, rfl, packXkk_and_F0FF _ _ _⟩
theorem RowMatch.ldBX (x : Reg) : RowMatch.Statement (.ldBX x) :=
  ⟨_, rfl, packXkk_and_F0FF _ _ _⟩
theorem RowMatch.ldMemX (x : Reg) : RowMatch.Statement (.ldMemX x) :=
  ⟨_, rfl, packXkk_and_F0FF _ _ _⟩
theorem RowMatch.ldXMem (x : Reg) : RowMatch.Statement (.ldXMem x) :=
  ⟨_, rfl, packXkk_and_F0FF _ _ _⟩

end Sys2Proof.Laws
end

