-- ==== Sys2Proof/Tests/Slice0.lean ====
section
/-! SUPPORT. Tests: the spec's own vectors (95_test_vectors.md E1–E18, V1–V124) and words written out from the rows
of R82; then, for every statement with hypotheses, concrete states and operands that meet them. No expected value
comes from the model. -/

namespace Sys2Proof.Tests

open Sys2Proof.Machine Sys2Proof.Claims

/-! ## Small states -/

/-- The registers listed, every other one zero. -/
def regs (l : List (Reg × Byte)) : Vector Byte 16 := l.foldl (fun v p => v.set p.1 p.2) (Vector.replicate 16 0)

/-- The keys listed held, every other one not. -/
def keys (l : List KeyIndex) : Vector Bool 16 := l.foldl (fun v (k : KeyIndex) => v.set k true) (Vector.replicate 16 false)

/-- The framebuffer with the pixels listed on (row, column). -/
def pixels (l : List (Fin 32 × Fin 64)) : Framebuffer := l.foldl (fun fb p => fb.flip p.1 p.2) (Vector.replicate 32 0)

/-- The start state of a vector: the word is where the next cycle fetches it. -/
def placed (w : Nat) (s : State := State.reset) : State := s.withFetchWord 16 w

/-- The next state of one step has the property. -/
def after (s : State) (p : State → Bool) : Bool :=
  match step s with
  | .next t => p t
  | .fault _ => false
  | .refused _ => false

/-- A record of an access fault of the instruction at `0x200`. -/
def record (w : Word) (k : AccessKind) (a : Nat) : FaultRecord := ⟨.outOfBoundsAccess, 0x200, some w, some k, some a⟩

/-! ## Well-formed terms -/

/-- `DRW` with 16 rows has no encoding: `n` is a 4-bit field (R72). -/
theorem test_wf_refuses_drw_16 : WellFormed (.drw 1 2 16) = false := by decide

theorem test_wf_admits_drw_15 : WellFormed (.drw 1 2 15) = true := by decide

/-! ## Decoding: each row of R82 as a word written out bit by bit -/

theorem test_decode_control_flow :
    decodeWord 0b0000_0000_1110_0000 = some (.cls 0) ∧ decodeWord 0b0000_1010_1110_1110 = some (.ret 10) ∧
    decodeWord 0b0001_0010_0011_0100 = some (.jp 0x234) ∧ decodeWord 0b0010_1010_1011_1100 = some (.call 0xABC) ∧
    decodeWord 0b0011_0011_0100_0010 = some (.seKk 3 0x42) ∧ decodeWord 0b0100_1111_1000_0001 = some (.sneKk 15 0x81) ∧
    decodeWord 0b0101_0001_0010_0111 = some (.seXy 1 2 7) ∧ decodeWord 0b1001_0100_1000_1111 = some (.sneXy 4 8 15) ∧
    decodeWord 0b1011_0011_0000_0001 = some (.jpV0 0x301) := by decide

theorem test_decode_arithmetic_immediate :
    decodeWord 0b0110_1010_0101_1100 = some (.ldKk 10 0x5C) ∧ decodeWord 0b0111_0001_0000_0010 = some (.addKk 1 2) ∧
    decodeWord 0b1100_0001_0000_1111 = some (.rnd 1 0x0F) := by decide

theorem test_decode_arithmetic_register :
    decodeWord 0b1000_0110_0011_0000 = some (.ldXy 6 3) ∧ decodeWord 0b1000_0001_0010_0001 = some (.orXy 1 2) ∧
    decodeWord 0b1000_0001_0010_0010 = some (.andXy 1 2) ∧ decodeWord 0b1000_0001_0010_0011 = some (.xorXy 1 2) ∧
    decodeWord 0b1000_0001_0010_0100 = some (.addXy 1 2) ∧ decodeWord 0b1000_0001_0010_0101 = some (.sub 1 2) ∧
    decodeWord 0b1000_0001_0010_0110 = some (.shr 1 2) ∧ decodeWord 0b1000_0001_0010_0111 = some (.subn 1 2) ∧
    decodeWord 0b1000_0001_0010_1110 = some (.shl 1 2) := by decide

theorem test_decode_draw_and_keys :
    decodeWord 0b1101_0001_0010_0011 = some (.drw 1 2 3) ∧ decodeWord 0b1110_0101_1001_1110 = some (.skp 5) ∧
    decodeWord 0b1110_0101_1010_0001 = some (.sknp 5) := by decide

theorem test_decode_registers :
    decodeWord 0b1010_0001_0010_0011 = some (.ldI 0x123) ∧ decodeWord 0b1111_0001_0000_0111 = some (.ldXDt 1) ∧
    decodeWord 0b1111_0010_0000_1010 = some (.ldXK 2) ∧ decodeWord 0b1111_0011_0001_0101 = some (.ldDtX 3) ∧
    decodeWord 0b1111_0100_0001_1000 = some (.ldStX 4) ∧ decodeWord 0b1111_0101_0001_1110 = some (.addIX 5) ∧
    decodeWord 0b1111_0110_0010_1001 = some (.ldFX 6) ∧ decodeWord 0b1111_0111_0011_0011 = some (.ldBX 7) ∧
    decodeWord 0b1111_1000_0101_0101 = some (.ldMemX 8) ∧ decodeWord 0b1111_1001_0110_0101 = some (.ldXMem 9) := by decide

/-- V8–V11: the missing sub-keys of the four families. -/
theorem test_decode_unknown :
    [0x0000, 0x00E1, 0x0123, 0x8008, 0x800F, 0xE19F, 0xF000, 0xF1FF].all (fun w => decodeWord w == none) := by decide

/-- E1: bytes are big-endian, and a lone byte is no instruction (R70). -/
theorem test_decode_bytes :
    decode [0x12, 0x4E, 0x99] = .ok (.jp 0x24E, [0x99]) ∧ decode [0x12] = .error .truncated := by decide

/-! ## The cycle -/

/-- V1: an odd `PC` is legal. -/
theorem test_cycle_odd_pc :
    after (placed 0x6A07 { State.reset with pc := 0x201 }) (fun t => t.readV 10 == 7 && t.pc == 0x203) := by decide

/-- V2: the last fetchable word. -/
theorem test_cycle_last_word :
    after (placed 0x6A07 { State.reset with pc := 0xFFE }) (fun t => t.readV 10 == 7 && t.pc == 0x1000) := by decide

/-- V3, V4: a fetch past the end. -/
theorem test_cycle_fetch_fault :
    after { State.reset with pc := 0xFFF } (fun t => t.pc == 0xFFF &&
      t.fault == some ⟨.outOfBoundsAccess, 0xFFF, none, some .fetch, some 0x1000⟩) ∧
    after { State.reset with pc := 0x10FE } (fun t =>
      t.fault == some ⟨.outOfBoundsAccess, 0x10FE, none, some .fetch, some 0x10FE⟩) := by decide

/-- V5: a halted core changes nothing. -/
theorem test_cycle_halted :
    after { State.reset with dt := 9, fault := some (record 0xD011 .spriteRead 0x1005) } (fun t => t.dt == 9 && t.pc == 0x200) ∧
    diagnostic { State.reset with fault := some (record 0xD011 .spriteRead 0x1005) } = none := by decide

/-- V6: the tick floors at zero. -/
theorem test_cycle_tick : after (placed 0x6000 { State.reset with st := 3 }) (fun t => t.dt == 0 && t.st == 2) := by decide

/-- E16: an unknown opcode advances, ticks and is reported, and is not fatal. -/
theorem test_cycle_unknown :
    after { State.reset with dt := 5 } (fun t => t.pc == 0x202 && t.dt == 4 && t.fault == none) ∧
    diagnostic { State.reset with dt := 5 } = some ⟨⟨.unknownOpcode, 0x200, some 0x0000, none, none⟩, false⟩ := by decide

/-- V104: a waiting cycle with no key held only ticks. -/
theorem test_cycle_waits :
    after { State.reset with wait := some 1, pc := 0x202, dt := 1 }
      (fun t => t.wait == some 1 && t.pc == 0x202 && t.dt == 0) := by decide

/-- V105: the lowest held key resolves the wait, and nothing is fetched. -/
theorem test_cycle_wait_resolves :
    after { State.reset with wait := some 1, pc := 0x202, key := keys [0xE, 0xC] }
      (fun t => t.wait == none && t.pc == 0x202 && t.readV 1 == 0x0C) := by decide

/-! ## Control flow -/

/-- V20. -/
theorem test_cls : after (placed 0x00E0 { State.reset with v := regs [(15, 0x33)], fb := pixels [(0, 0), (31, 63)] })
    (fun t => !t.fbView 0 && !t.fbView 2047 && t.readV 15 == 0x33 && t.pc == 0x202) := by decide

/-- V21. -/
theorem test_ret_pops :
    after (placed 0x00EE { State.reset with sp := 1, pc := 0x212, stack := State.reset.stack.set 0 0x206 })
      (fun t => t.sp == 0 && t.pc == 0x206 && t.stack[0] == 0x206) := by decide

/-- V22. -/
theorem test_ret_underflows : after (placed 0x00EE { State.reset with dt := 5 })
    (fun t => t.fault == some ⟨.stackUnderflow, 0x200, some 0x00EE, none, none⟩ && t.dt == 5 && t.pc == 0x200) := by decide

/-- E2. -/
theorem test_jp : after (placed 0x1234) (fun t => t.pc == 0x234) := by decide

/-- V27. -/
theorem test_call_pushes : after (placed 0x2300 { State.reset with pc := 0xFFE })
    (fun t => t.stack[0] == 0x1000 && t.sp == 1 && t.pc == 0x300) := by decide

/-- V26. -/
theorem test_call_overflows : after (placed 0x2400 { State.reset with sp := 16 })
    (fun t => t.fault == some ⟨.stackOverflow, 0x200, some 0x2400, none, none⟩ && t.sp == 16 && t.pc == 0x200) := by decide

/-- V29: the register is `V0`, and the sum is not wrapped. -/
theorem test_jpV0 : after (placed 0xBFFF { State.reset with v := regs [(0, 0xFF), (15, 0x10)] }) (fun t => t.pc == 0x10FE) := by
  decide

/-- E11. -/
theorem test_seKk : after (placed 0x3342 { State.reset with v := regs [(3, 0x42)] }) (fun t => t.pc == 0x204) ∧
    after (placed 0x3342 { State.reset with v := regs [(3, 0x41)] }) (fun t => t.pc == 0x202) := by decide

/-- V30, V31. -/
theorem test_sneKk : after (placed 0x4342 { State.reset with v := regs [(3, 0x42)] }) (fun t => t.pc == 0x202) ∧
    after (placed 0x4342 { State.reset with v := regs [(3, 0x41)] }) (fun t => t.pc == 0x204) := by decide

/-- V12, V33. -/
theorem test_seXy : after (placed 0x5127 { State.reset with v := regs [(1, 7), (2, 7)] }) (fun t => t.pc == 0x204) ∧
    after (placed 0x5120 { State.reset with v := regs [(1, 7), (2, 8)] }) (fun t => t.pc == 0x202) := by decide

/-- V13, V34. -/
theorem test_sneXy : after (placed 0x912F { State.reset with v := regs [(1, 7), (2, 8)] }) (fun t => t.pc == 0x204) ∧
    after (placed 0x9120 { State.reset with v := regs [(1, 7), (2, 7)] }) (fun t => t.pc == 0x202) := by decide

/-! ## Arithmetic -/

/-- V40. -/
theorem test_ldKk : after (placed 0x6A5C) (fun t => t.readV 10 == 0x5C) := by decide

/-- V41. -/
theorem test_addKk : after (placed 0x7102 { State.reset with v := regs [(1, 0xFF), (15, 0x77)] })
    (fun t => t.readV 1 == 0x01 && t.readV 15 == 0x77) := by decide

/-- E4. -/
theorem test_ldXy : after (placed 0x8630 { State.reset with v := regs [(3, 0x5A)] })
    (fun t => t.readV 6 == 0x5A && t.readV 3 == 0x5A) := by decide

/-- V43. -/
theorem test_orXy : after (placed 0x8121 { State.reset with v := regs [(1, 0xF0), (2, 0x0F), (15, 0x55)] })
    (fun t => t.readV 1 == 0xFF && t.readV 15 == 0x55) := by decide

/-- V44. -/
theorem test_andXy : after (placed 0x8122 { State.reset with v := regs [(1, 0xF0), (2, 0x3C)] }) (fun t => t.readV 1 == 0x30) := by
  decide

/-- V45. -/
theorem test_xorXy : after (placed 0x8123 { State.reset with v := regs [(1, 0xF0), (2, 0x3C)] }) (fun t => t.readV 1 == 0xCC) := by
  decide

/-- E5, V48: a sum of 256 carries, a sum of 255 does not. -/
theorem test_addXy : after (placed 0x8124 { State.reset with v := regs [(1, 0xFF), (2, 0x01)] })
      (fun t => t.readV 1 == 0x00 && t.readV 15 == 1) ∧
    after (placed 0x8124 { State.reset with v := regs [(1, 0xFF)] }) (fun t => t.readV 1 == 0xFF && t.readV 15 == 0) := by decide

/-- V50: the flag is written last. -/
theorem test_addXy_into_VF : after (placed 0x8F14 { State.reset with v := regs [(15, 0x10), (1, 0x05)] })
    (fun t => t.readV 15 == 0x00) := by decide

/-- E8, E7. -/
theorem test_sub : after (placed 0x8125 { State.reset with v := regs [(1, 0x03), (2, 0x05)] })
      (fun t => t.readV 1 == 0xFE && t.readV 15 == 0) ∧
    after (placed 0x8125 { State.reset with v := regs [(1, 0x05), (2, 0x03)] })
      (fun t => t.readV 1 == 0x02 && t.readV 15 == 1) := by decide

/-- V51: strict at equality. -/
theorem test_sub_equal : after (placed 0x8125 { State.reset with v := regs [(1, 0x05), (2, 0x05)] })
    (fun t => t.readV 1 == 0x00 && t.readV 15 == 0) := by decide

/-- V55, E9: `y` is ignored. -/
theorem test_shr : after (placed 0x8126 { State.reset with v := regs [(1, 0x04), (2, 0xFF)] })
      (fun t => t.readV 1 == 0x02 && t.readV 2 == 0xFF && t.readV 15 == 0) ∧
    after (placed 0x8106 { State.reset with v := regs [(1, 0x03)] }) (fun t => t.readV 1 == 0x01 && t.readV 15 == 1) := by decide

/-- V57, V58. -/
theorem test_subn : after (placed 0x8127 { State.reset with v := regs [(1, 0x03), (2, 0x05)] })
      (fun t => t.readV 1 == 0x02 && t.readV 15 == 1) ∧
    after (placed 0x8127 { State.reset with v := regs [(1, 0x05), (2, 0x03)] })
      (fun t => t.readV 1 == 0xFE && t.readV 15 == 0) := by decide

/-- E10, V62. -/
theorem test_shl : after (placed 0x810E { State.reset with v := regs [(1, 0x81)] })
      (fun t => t.readV 1 == 0x02 && t.readV 15 == 1) ∧
    after (placed 0x8FFE { State.reset with v := regs [(15, 0x81)] }) (fun t => t.readV 15 == 0x01) := by decide

/-- V65: no bit outside the mask, whatever the draw. -/
theorem test_rnd : ∃ t, step (placed 0xC100) = .next t ∧ t.readV 1 = 0 ∧ t.draws = 1 := by
  refine ⟨_, rfl, ?_, rfl⟩
  show Config.randomByte 0 &&& 0#8 = 0#8
  exact BitVec.and_zero

/-! ## Draw and keys -/

/-- E13: the second column wraps to column 0; V74: a collision. -/
theorem test_drw_wraps_and_collides :
    after (placed 0xD011 { State.reset with i := 0x300, mem := [(0x300, 0xC0)], v := regs [(0, 63)] })
      (fun t => t.fb == pixels [(0, 63), (0, 0)] && t.readV 15 == 0 && t.pc == 0x202) ∧
    after (placed 0xD011 { State.reset with i := 0x300, mem := [(0x300, 0xFF)], fb := pixels [(0, 3), (0, 10)] })
      (fun t => t.fb == pixels [(0, 0), (0, 1), (0, 2), (0, 4), (0, 5), (0, 6), (0, 7), (0, 10)] && t.readV 15 == 1) := by
  decide

/-- V76: a sprite past the end; V75: no rows, no read, no fault. -/
theorem test_drw_bounds :
    after (placed 0xD013 { State.reset with i := 0xFFE, v := regs [(15, 9)] })
      (fun t => t.fault == some (record 0xD013 .spriteRead 0x1000) && t.readV 15 == 9 && t.pc == 0x200) ∧
    after (placed 0xD010 { State.reset with i := 0xFFFF, v := regs [(15, 0x44)] })
      (fun t => t.fault == none && t.readV 15 == 0 && t.pc == 0x202) := by decide

/-- V94, V92. -/
theorem test_skp : after (placed 0xE19E { State.reset with key := keys [5], v := regs [(1, 0x15)] }) (fun t => t.pc == 0x204) ∧
    after (placed 0xE19E { State.reset with v := regs [(1, 5)] }) (fun t => t.pc == 0x202) := by decide

/-- V91, V93. -/
theorem test_sknp : after (placed 0xE1A1 { State.reset with key := keys [5], v := regs [(1, 5)] }) (fun t => t.pc == 0x202) ∧
    after (placed 0xE1A1 { State.reset with v := regs [(1, 5)] }) (fun t => t.pc == 0x204) := by decide

/-! ## Index, timers, key wait, memory blocks -/

/-- V100. -/
theorem test_ldI : after (placed 0xA123) (fun t => t.i == 0x123) := by decide

/-- V101. -/
theorem test_ldXDt : after (placed 0xF107 { State.reset with dt := 0x30 }) (fun t => t.readV 1 == 0x30 && t.dt == 0x2F) := by
  decide

/-- V102, V103. -/
theorem test_ldXK : after (placed 0xF10A { State.reset with key := keys [9, 3] })
      (fun t => t.readV 1 == 3 && t.wait == none && t.pc == 0x202) ∧
    after (placed 0xF10A { State.reset with dt := 2 }) (fun t => t.wait == some 1 && t.pc == 0x202 && t.dt == 1) := by decide

/-- V107. -/
theorem test_ldDtX : after (placed 0xF115 { State.reset with v := regs [(1, 5)] }) (fun t => t.dt == 4) := by decide

/-- V108. -/
theorem test_ldStX : after (placed 0xF118 { State.reset with v := regs [(1, 1)] }) (fun t => t.st == 0 && !t.soundOn) := by decide

/-- V111, V112. -/
theorem test_addIX : after (placed 0xF11E { State.reset with i := 0xFFFF, v := regs [(1, 1), (15, 0x22)] })
      (fun t => t.i == 0x0000 && t.readV 15 == 0x22) ∧
    after (placed 0xF11E { State.reset with i := 0x0FFF, v := regs [(1, 1)] }) (fun t => t.i == 0x1000) := by decide

/-- E18, V114. -/
theorem test_ldFX : after (placed 0xF229 { State.reset with v := regs [(2, 0x0A)] }) (fun t => t.i == 0x082) ∧
    after (placed 0xF129 { State.reset with v := regs [(1, 0xFF)] }) (fun t => t.i == 0x54B) := by decide

/-- E14, V117. -/
theorem test_ldBX : after (placed 0xF533 { State.reset with i := 0x300, v := regs [(5, 0xEA)] })
      (fun t => t.mem.read 0x300 == 2 && t.mem.read 0x301 == 3 && t.mem.read 0x302 == 4 && t.i == 0x300) ∧
    after (placed 0xF133 { State.reset with i := 0xFFD, v := regs [(1, 0x7B)] })
      (fun t => t.mem.read 0xFFD == 1 && t.mem.read 0xFFF == 3) := by decide

/-- V118. -/
theorem test_ldBX_faults : after (placed 0xF133 { State.reset with i := 0xFFE, v := regs [(1, 0x7B)] })
    (fun t => t.fault == some (record 0xF133 .bcdWrite 0x1000) && t.mem.read 0xFFE == 0) := by decide

/-- V119, V124. -/
theorem test_ldMemX : after (placed 0xF155 { State.reset with i := 0xFFE, v := regs [(0, 0x11), (1, 0x22)] })
      (fun t => t.mem.read 0xFFE == 0x11 && t.mem.read 0xFFF == 0x22 && t.i == 0xFFE) ∧
    after (placed 0xF055 { State.reset with i := 0x300, v := regs [(0, 0xAB), (1, 0xCD)] })
      (fun t => t.mem.read 0x300 == 0xAB && t.mem.read 0x301 == 0) := by decide

/-- V120, V121. -/
theorem test_ldMemX_faults :
    after (placed 0xF255 { State.reset with i := 0xFFE, v := regs [(0, 1)] })
      (fun t => t.fault == some (record 0xF255 .blockStore 0x1000) && t.mem.read 0xFFE == 0) ∧
    after (placed 0xF055 { State.reset with i := 0x1005 }) (fun t => t.fault == some (record 0xF055 .blockStore 0x1005)) := by
  decide

/-- V122 over its last two registers, and the font as data (R54): `V0`..`V4` from `0x050` are glyph 0. -/
theorem test_ldXMem : after (placed 0xFF65 { State.reset with i := 0xFF0, mem := [(0xFFE, 0x0E), (0xFFF, 0x0F)] })
      (fun t => t.readV 14 == 0x0E && t.readV 15 == 0x0F && t.i == 0xFF0) ∧
    after (placed 0xF465 { State.reset with i := 0x050, v := regs [(5, 7)] })
      (fun t => t.v == regs [(0, 0xF0), (1, 0x90), (2, 0x90), (3, 0x90), (4, 0xF0), (5, 7)]) := by decide

/-- V123. -/
theorem test_ldXMem_faults : after (placed 0xFF65 { State.reset with i := 0xFF1, v := regs [(0, 5)] })
    (fun t => t.fault == some (record 0xFF65 .blockLoad 0x1000) && t.readV 0 == 5) := by decide

/-! ## What the host asks -/

theorem test_table_word : decodeTableWord 16 0xD123 = some (.drw 1 2 3) ∧ decodeTableWord 16 0x0000 = none := by decide

theorem test_fetch_word_runs_first :
    after (State.reset.withFetchWord 16 0x6A07) (fun t => t.readV 10 == 7 && t.pc == 0x202) := by decide

/-- A write of the reset value leaves nothing listed, so equal memories are equal data. -/
theorem test_memory_canonical :
    Memory.write (Memory.write [] 0x300 7) 0x300 0 = [] ∧ Memory.write [] 0x050 0xF0 = [] := by decide

/-! ## Witnesses: for each statement with hypotheses, states and operands that meet them together, each clause at a
boundary value of its range -/

/-- Every row's own match value is a word of the row: the encoding clauses have words to speak of. -/
theorem witness_WordsDecodeTo : ∀ r ∈ opcodeRows, r.value &&& r.mask = r.value := by decide

/-- Both ends of a stack that is not empty, and the empty one. -/
theorem witness_RetPopsReturnAddressOrUnderflows :
    ({ State.reset with sp := 1 } : State).sp.val ≠ 0 ∧ ({ State.reset with sp := 16 } : State).sp.val ≠ 0 ∧
    State.reset.sp.val = 0 := by decide

/-- Both ends of a stack with room, and the full one. -/
theorem witness_CallPushesReturnAddressOrOverflows :
    State.reset.sp.val < 16 ∧ ({ State.reset with sp := 15 } : State).sp.val < 16 ∧
    ({ State.reset with sp := 16 } : State).sp.val = 16 := by decide

theorem witness_CallThenReturnResumes : ({ State.reset with sp := 15 } : State).sp.val < 16 := by decide

/-- A sprite of no rows anywhere, one that ends at `0xFFF`, one that passes it by a byte, and one that begins past
it. -/
theorem witness_DrwFlipsExactlyTheCoveredPixels :
    ((0 : Nat) ≤ 15 ∧ ((0 : Nat) = 0 ∨ ({ State.reset with i := 0xFFFF } : State).i.toNat + 0 - 1 ≤ 0xFFF)) ∧
    ((3 : Nat) ≤ 15 ∧ ((3 : Nat) = 0 ∨ ({ State.reset with i := 0xFFD } : State).i.toNat + 3 - 1 ≤ 0xFFF)) ∧
    ((3 : Nat) ≤ 15 ∧ 0 < 3 ∧ ({ State.reset with i := 0xFFE } : State).i.toNat + 3 - 1 > 0xFFF) ∧
    ((1 : Nat) ≤ 15 ∧ 0 < 1 ∧ ({ State.reset with i := 0x1000 } : State).i.toNat + 1 - 1 > 0xFFF) := by decide

/-- The state of E13: a sprite row with two set bits, drawn from column 63. -/
def sprite : State := { State.reset with i := 0x300, mem := [(0x300, 0xC0)], v := regs [(0, 63)] }

/-- The same with the wrapped pixel on. -/
def spriteOverPixel : State := { sprite with fb := pixels [(0, 0)] }

/-- A covered pixel (the wrapped column), a collision, and a pixel that is not covered. -/
theorem witness_DrwFlipsExactlyTheCoveredPixels_collision :
    SpriteCovers spriteOverPixel 1 (spriteOverPixel.readV 0).toNat (spriteOverPixel.readV 1).toNat 0 0 ∧
    spriteOverPixel.fbView (0 * 64 + 0) = true ∧
    ¬ SpriteCovers spriteOverPixel 1 (spriteOverPixel.readV 0).toNat (spriteOverPixel.readV 1).toNat 1 0 := by
  refine ⟨⟨0, 1, by decide⟩, by decide, ?_⟩
  rintro ⟨r, c, hr, hc, -, h, -⟩
  have hv : (spriteOverPixel.readV 1).toNat = 0 := by decide
  omega

/-- A draw that meets no pixel that was on, as the second draw of E12 needs it. -/
theorem witness_DrawingTwiceErases :
    (1 : Nat) ≤ 15 ∧ ((1 : Nat) = 0 ∨ sprite.i.toNat + 1 - 1 ≤ 0xFFF) ∧ (0 : Reg) ≠ 15 ∧ (1 : Reg) ≠ 15 ∧
    (∀ row < 32, ∀ col < 64, SpriteCovers sprite 1 (sprite.readV 0).toNat (sprite.readV 1).toNat row col →
      sprite.fbView (row * 64 + col) = false) ∧
    (∃ row < 32, ∃ col < 64, SpriteCovers sprite 1 (sprite.readV 0).toNat (sprite.readV 1).toNat row col) := by
  refine ⟨by decide, by decide, by decide, by decide, fun row _ col _ _ => ?_, 0, by decide, 0, by decide, 0, 1, by decide⟩
  simp [State.fbView, Framebuffer.flat, Framebuffer.pixel, sprite, State.reset]

/-- A register above 15 and its masked index. -/
theorem witness_KeySkipsTestTheMaskedIndex :
    (5 : KeyIndex).val = (({ State.reset with v := regs [(1, 0x15)] } : State).readV 1).toNat % 16 ∧
    (15 : KeyIndex).val = (({ State.reset with v := regs [(1, 0xFF)] } : State).readV 1).toNat % 16 := by decide

theorem witness_TimerInstructionsMeetTheTick :
    Fetches (placed 0xF107) (.ldXDt 1) ∧ Fetches (placed 0xF115) (.ldDtX 1) ∧ Fetches (placed 0xF118) (.ldStX 1) := by
  simp only [Fetches]; decide

/-- The lowest held key at both ends of its range and between, and no key held. -/
theorem witness_KeyWaitResolvesAtOnceOrWaits :
    (({ State.reset with key := keys [0, 9] } : State).keyHeld 0 = true ∧
      ∀ j < (0 : KeyIndex), ({ State.reset with key := keys [0, 9] } : State).keyHeld j = false) ∧
    (({ State.reset with key := keys [15] } : State).keyHeld 15 = true ∧
      ∀ j < (15 : KeyIndex), ({ State.reset with key := keys [15] } : State).keyHeld j = false) ∧
    ∀ k, State.reset.keyHeld k = false := by decide

/-- The last three bytes, and one byte past them. -/
theorem witness_BcdStoresDecimalDigits :
    State.reset.mem.wf ∧ ({ State.reset with i := 0xFFD } : State).i.toNat + 2 ≤ 0xFFF ∧
    ({ State.reset with i := 0xFFE } : State).i.toNat + 2 > 0xFFF := by decide

/-- A block of one byte and one of sixteen that end at `0xFFF`, and each moved one byte on. -/
theorem witness_BlockStoreWritesRegisters :
    State.reset.mem.wf ∧ ({ State.reset with i := 0xFFF } : State).i.toNat + (0 : Reg).val ≤ 0xFFF ∧
    ({ State.reset with i := 0xFF0 } : State).i.toNat + (15 : Reg).val ≤ 0xFFF ∧
    ({ State.reset with i := 0x1000 } : State).i.toNat + (0 : Reg).val > 0xFFF ∧
    ({ State.reset with i := 0xFF1 } : State).i.toNat + (15 : Reg).val > 0xFFF := by decide

theorem witness_BlockLoadReadsRegisters :
    ({ State.reset with i := 0xFFF } : State).i.toNat + (0 : Reg).val ≤ 0xFFF ∧
    ({ State.reset with i := 0xFF0 } : State).i.toNat + (15 : Reg).val ≤ 0xFFF ∧
    ({ State.reset with i := 0x1000 } : State).i.toNat + (0 : Reg).val > 0xFFF ∧
    ({ State.reset with i := 0xFF1 } : State).i.toNat + (15 : Reg).val > 0xFFF := by decide

theorem witness_StoreThenLoadRestores :
    State.reset.mem.wf ∧ ({ State.reset with i := 0xFF0 } : State).i.toNat + (15 : Reg).val ≤ 0xFFF := by decide

theorem witness_StoreIsSeenByTheNextFetch :
    State.reset.mem.wf ∧ 1 ≤ (1 : Reg).val ∧
    ({ State.reset with i := 0x202 } : State).i = ({ State.reset with i := 0x202 } : State).pc + 2 ∧
    ({ State.reset with i := 0x202 } : State).i.toNat + (1 : Reg).val ≤ 0xFFF := by decide

/-- An instruction that answers a next state in which `I` differs, and one in which it does not. -/
theorem witness_frames_index :
    (∃ t, exec (.ldI 0x123) State.reset = .next t ∧ t.i ≠ State.reset.i) ∧
    (∃ t, exec (.cls 0) State.reset = .next t ∧ t.i = State.reset.i) :=
  ⟨⟨_, rfl, by decide⟩, ⟨_, rfl, rfl⟩⟩

/-- OnlyNamedRegistersAreWritten: a register that is written, and one outside the named ones. -/
theorem witness_OnlyNamedRegistersAreWritten :
    ∃ t, exec (.ldKk 3 7) State.reset = .next t ∧ writesReg 3 (.ldKk 3 7) ∧ ¬ writesReg 4 (.ldKk 3 7) :=
  ⟨_, rfl, rfl, fun h => absurd (show (4 : Reg) = 3 from h) (by decide)⟩

/-- OnlyStoredBytesChange: the bytes just outside a block store of four. -/
theorem witness_OnlyStoredBytesChange :
    (∃ t, exec (.ldMemX 3) { State.reset with i := 0x300 } = .next t) ∧
    (0x2FF < (storedBytes { State.reset with i := 0x300 } (.ldMemX 3)).1) ∧
    (storedBytes { State.reset with i := 0x300 } (.ldMemX 3)).1 +
      (storedBytes { State.reset with i := 0x300 } (.ldMemX 3)).2 ≤ 0x304 :=
  ⟨⟨_, rfl⟩, by decide, by decide⟩

/-- OnlyCallAndRetTouchTheStack: a stack and a stack pointer that change. -/
theorem witness_OnlyCallAndRetTouchTheStack :
    ∃ t, exec (.call 0x300) State.reset = .next t ∧ t.stack ≠ State.reset.stack ∧ t.sp ≠ State.reset.sp :=
  ⟨_, rfl, by decide, by decide⟩

/-- OnlyClsAndDrwChangePixels: a framebuffer that changes. -/
theorem witness_OnlyClsAndDrwChangePixels : ∃ t, exec (.cls 0) spriteOverPixel = .next t ∧ t.fb ≠ spriteOverPixel.fb :=
  ⟨_, rfl, by decide⟩

/-- OnlyNamedInstructionsTouchSystemState: each of the five fields changed by some instruction. -/
theorem witness_OnlyNamedInstructionsTouchSystemState :
    (∃ t, exec (.ldDtX 1) { State.reset with v := regs [(1, 5)] } = .next t ∧ t.dt ≠ State.reset.dt) ∧
    (∃ t, exec (.ldStX 1) { State.reset with v := regs [(1, 5)] } = .next t ∧ t.st ≠ State.reset.st) ∧
    (∃ t, exec (.ldXK 1) State.reset = .next t ∧ t.wait ≠ State.reset.wait) ∧
    (∃ t, exec (.rnd 1 0) State.reset = .next t ∧ t.draws ≠ State.reset.draws) ∧
    (∃ t, exec (.ret 0) State.reset = .next t ∧ t.fault ≠ State.reset.fault) :=
  ⟨⟨_, rfl, by decide⟩, ⟨_, rfl, by decide⟩, ⟨_, rfl, by decide⟩, ⟨_, rfl, by decide⟩, ⟨_, rfl, by decide⟩⟩

theorem witness_OtherInstructionsAdvanceByTwo :
    ∃ t, ¬ jumpsOrSkips (.ldKk 1 2) ∧ State.reset.fault = none ∧ exec (.ldKk 1 2) State.reset = .next t ∧ t.fault = none :=
  ⟨_, id, rfl, rfl, rfl⟩

/-- The last fetchable word: a handler that completes, and one that faults. -/
theorem witness_StepRunsTheDecodedInstruction :
    ∃ s t u : State, s = placed 0x00EE { State.reset with pc := 0xFFE, sp := 1 } ∧
      s.fault = none ∧ s.wait = none ∧ s.pc.toNat + 1 ≤ 0xFFF ∧
      decode [s.mem.read s.pc.toNat, s.mem.read (s.pc.toNat + 1)] = .ok (.ret 0, []) ∧
      exec (.ret 0) s = .next t ∧ t.fault = none ∧ exec (.ret 0) { s with sp := 0 } = .next u ∧ u.fault ≠ none :=
  ⟨_, _, _, rfl, by decide, by decide, by decide, by decide, rfl, by decide, rfl, by decide⟩

/-- A waiting core with two keys held, and one with none. -/
theorem witness_WaitingCycleSamplesTheKeys :
    ∃ s u : State, s.fault = none ∧ s.wait = some 15 ∧ s.keyHeld 2 = true ∧ (∀ j < (2 : KeyIndex), s.keyHeld j = false) ∧
      u.fault = none ∧ u.wait = some 15 ∧ ∀ k, u.keyHeld k = false :=
  ⟨{ State.reset with wait := some 15, key := keys [4, 2] }, { State.reset with wait := some 15 }, by decide⟩

theorem witness_WaitingLastsUntilAKeyIsHeld :
    ∃ s : State, s.fault = none ∧ s.wait = some 1 ∧ ∀ k, s.keyHeld k = false :=
  ⟨{ State.reset with wait := some 1 }, by decide⟩

/-- `PC` at `0xFFF`, and at the largest jump target. -/
theorem witness_FetchPastTheEndFaults :
    ∃ s u : State, s.fault = none ∧ s.wait = none ∧ 0xFFF ≤ s.pc.toNat ∧ s.pc = 0xFFF ∧
      u.fault = none ∧ u.wait = none ∧ 0xFFF ≤ u.pc.toNat ∧ u.pc = 0x10FE :=
  ⟨{ State.reset with pc := 0xFFF }, { State.reset with pc := 0x10FE }, by decide⟩

theorem witness_UnknownOpcodeOnlyAdvancesAndTicks :
    ∃ s : State, s.fault = none ∧ s.wait = none ∧ s.pc.toNat + 1 ≤ 0xFFF ∧ decodeWord s.fetchWord = none :=
  ⟨placed 0xF1FF { State.reset with pc := 0xFFE }, by decide⟩

/-- A cycle that completes; one over each timer write; one over neither. -/
theorem witness_TimersTickOncePerCycle :
    (∃ s t, step s = .next t ∧ s.fault = none ∧ t.fault = none ∧ Fetches s (.ldDtX 1)) ∧
    (∃ s t, step s = .next t ∧ s.fault = none ∧ t.fault = none ∧ Fetches s (.ldStX 1)) ∧
    (∃ s t, step s = .next t ∧ s.fault = none ∧ t.fault = none ∧ Fetches s (.ldXDt 1) ∧
      (∀ x, ¬ Fetches s (.ldDtX x)) ∧ ∀ x, ¬ Fetches s (.ldStX x)) := by
  refine ⟨⟨placed 0xF115, _, rfl, rfl, rfl, by unfold Fetches; decide⟩, ⟨placed 0xF118, _, rfl, rfl, rfl, by unfold Fetches; decide⟩,
    placed 0xF107, _, rfl, rfl, rfl, ?_, ?_, ?_⟩ <;> unfold Fetches <;> decide

/-- A cycle that sets the wait, and one that clears it. -/
theorem witness_OnlyKeyWaitSetsAndKeysClearWait :
    (∃ s t : State, step s = .next t ∧ t.wait = some 1 ∧ s.wait ≠ some 1) ∧
    (∃ s t : State, step s = .next t ∧ s.wait = some 1 ∧ t.wait ≠ some 1) :=
  ⟨⟨placed 0xF10A, _, rfl, by decide, by decide⟩, { State.reset with wait := some 1, key := keys [2] }, _, rfl, by decide, by decide⟩

theorem witness_SelfLoopChangesOnlyTheTimers : ∃ s, SelfLoop s :=
  ⟨placed 0x1200, by decide, by decide, by decide, 0x200, by decide, by decide⟩

/-- A cycle that faults and one that does not. -/
theorem witness_FaultsAreExactlyTheListedOnes :
    (∃ s t : State, s.fault = none ∧ s.wait = none ∧ step s = .next t ∧ t.fault ≠ none) ∧
    (∃ s t : State, s.fault = none ∧ s.wait = none ∧ step s = .next t ∧ t.fault = none) :=
  ⟨⟨placed 0x00EE, _, by decide, by decide, rfl, by decide⟩, placed 0x6000, _, by decide, by decide, rfl, by decide⟩

/-- Each way to raise, at the edge of its range. -/
theorem witness_Raises :
    Raises { State.reset with pc := 0xFFF } ∧ Raises (placed 0x00EE) ∧ Raises (placed 0x2400 { State.reset with sp := 16 }) ∧
    Raises (placed 0xD013 { State.reset with i := 0xFFE }) ∧ Raises (placed 0xF133 { State.reset with i := 0xFFE }) ∧
    Raises (placed 0xF055 { State.reset with i := 0x1000 }) ∧ Raises (placed 0xFF65 { State.reset with i := 0xFF1 }) :=
  ⟨.inl (by decide), .inr ⟨by decide, .inl ⟨⟨0, by decide⟩, by decide⟩⟩,
    .inr ⟨by decide, .inr (.inl ⟨⟨0x400, by decide⟩, by decide⟩)⟩,
    .inr ⟨by decide, .inr (.inr (.inl ⟨0, 1, 3, by decide, by decide, by decide⟩))⟩,
    .inr ⟨by decide, .inr (.inr (.inr (.inl ⟨⟨1, by decide⟩, by decide⟩)))⟩,
    .inr ⟨by decide, .inr (.inr (.inr (.inr ⟨0, .inl (by decide), by decide⟩)))⟩,
    .inr ⟨by decide, .inr (.inr (.inr (.inr ⟨15, .inr (by decide), by decide⟩)))⟩⟩

/-- Just inside each edge nothing raises: the last fetchable word, a stack of 1 and of 15, and each access that ends at
`0xFFF`. -/
theorem witness_Raises_not :
    ¬ Raises (placed 0x6000 { State.reset with pc := 0xFFE }) ∧ ¬ Raises (placed 0x00EE { State.reset with sp := 1 }) ∧
    ¬ Raises (placed 0x2400 { State.reset with sp := 15 }) ∧ ¬ Raises (placed 0xD013 { State.reset with i := 0xFFD }) := by
  refine ⟨?_, ?_, ?_, ?_⟩
  · have h : decodeWord (placed 0x6000 { State.reset with pc := 0xFFE }).fetchWord = some (.ldKk 0 0) := by decide
    unfold Raises; rw [h]; simp; decide
  · have h : decodeWord (placed 0x00EE { State.reset with sp := 1 }).fetchWord = some (.ret 0) := by decide
    unfold Raises; rw [h]; simp; decide
  · have h : decodeWord (placed 0x2400 { State.reset with sp := 15 }).fetchWord = some (.call 0x400) := by decide
    unfold Raises; rw [h]; simp; decide
  · have h : decodeWord (placed 0xD013 { State.reset with i := 0xFFD }).fetchWord = some (.drw 0 1 3) := by decide
    unfold Raises; rw [h]; simp; decide

theorem witness_FaultsAbortTheWholeCycle :
    ∃ s t r, s.fault = none ∧ step s = .next t ∧ t.fault = some r :=
  ⟨placed 0x00EE { State.reset with dt := 5 }, _, _, by decide, rfl, rfl⟩

/-- A halted core. -/
def haltedState : State := { State.reset with fault := some (record 0xD011 .spriteRead 0x1005) }

theorem witness_HaltedCoreChangesNothing : haltedState.fault ≠ none := by decide

/-- A halted cycle, a cycle that latches a fault, and one that completes. -/
theorem witness_DiagnosticsReportExactlyTheErrors :
    (∃ t, step haltedState = .next t ∧ haltedState.fault ≠ none) ∧
    (∃ s t r, step s = .next t ∧ s.fault = none ∧ t.fault = some r) ∧
    (∃ s t : State, step s = .next t ∧ s.fault = none ∧ s.wait = none ∧ t.fault = none) :=
  ⟨⟨_, rfl, by decide⟩, ⟨placed 0x00EE, _, _, rfl, by decide, rfl⟩, placed 0xF1FF, _, rfl, by decide, by decide, by decide⟩

theorem witness_DecodeInvertsEncode : WellFormed (.drw 1 2 15) = true ∧ WellFormed (.ldXMem 15) = true := by decide

theorem witness_EncodeInvertsDecode : decodeWord 0xD12F = some (.drw 1 2 15) := by decide

theorem witness_OpcodeMapClassifiesEveryWord :
    decodeWord 0x8FFE = some (.shl 15 15) ∧ decodeWord 0x800F = none ∧ ⟨"SHL_Vx", 0xF00F, 0x800E⟩ ∈ opcodeRows := by decide

theorem witness_IgnoredBitsChangeNothing : ({ State.reset with sp := 16 } : State).sp.val ≠ 0 := by decide

/-- A running state that meets the invariant at the edges of its ranges. -/
theorem witness_StepKeepsTheInvariant :
    State.Inv { State.reset with pc := 0x10FE, sp := 16, stack := Vector.replicate 16 0x1000, mem := [(0xFFF, 1)] } where
  mem_wf := by decide
  pc_le := by decide
  stack_le := by decide
  halted := fun _ h => nomatch h

/-- A halted state that meets the invariant. -/
theorem witness_HostActionsKeepTheInvariant : haltedState.Inv where
  mem_wf := by decide
  pc_le := by decide
  stack_le := by decide
  halted := by rintro _ ⟨rfl⟩; exact ⟨rfl, rfl, _, _, rfl, rfl, by decide, by decide⟩

theorem witness_HostActionsKeepTheInvariant_load : ∃ t, haltedState.load [0x12, 0x00] = some t := ⟨_, rfl⟩

/-- A loaded state, and the halted one a cycle leads to from it. -/
theorem witness_ReachableStatesAreLegal : ∃ s r, Reachable s ∧ s.fault = some r :=
  ⟨_, _, .cycle (.boot (bytes := [0x00, 0xEE]) rfl) rfl, rfl⟩

theorem witness_ResetStateIsAsListed :
    (15 < 16 ∧ 4 < 5) ∧ ((0x04F : Nat) < 0x050 ∨ 0x09F < 0x04F) ∧ ((0x0A0 : Nat) < 0x050 ∨ 0x09F < 0x0A0) := by decide

/-- The longest program that is stored, and the shortest that is refused. -/
theorem witness_LoadStoresTheProgramOrIsRefused :
    State.reset.mem.wf ∧ (List.replicate 3584 (0 : Byte)).length ≤ 3584 ∧
    3584 < (List.replicate 3585 (0 : Byte)).length := by
  refine ⟨by decide, ?_, ?_⟩ <;> rw [List.length_replicate]
  omega

end Sys2Proof.Tests
end

section
/-! ## The decoder by leading nibble: a word that decodes is the encoding of what it decodes to -/

namespace Sys2Proof

theorem packXyn_of_fields {w : Word} {op n : Nibble} (hop : opField w = op) (hn : nField w = n) :
    packXyn op (xField w) (yField w) n = w := by
  rw [← hop, ← hn, packXyn_fields]

theorem packXkk_of_fields {w : Word} {op : Nibble} {kk : Byte} (hop : opField w = op) (hkk : kkField w = kk) :
    packXkk op (xField w) kk = w := by
  rw [← hop, ← hkk, packXkk_fields]

theorem packNnn_of_opField {w : Word} {op : Nibble} (hop : opField w = op) : packNnn op (nnnField w) = w := by
  rw [← hop, packNnn_fields]

/-- R78: the leading nibble hands the word to one of four families, or it alone names the instruction. -/
theorem decodeWord_dispatch (w : Word) :
    (opField w = 0x0 ∧ decodeWord w = decode0 w) ∨ (opField w = 0x8 ∧ decodeWord w = decode8 w) ∨
    (opField w = 0xE ∧ decodeWord w = decodeE w) ∨ (opField w = 0xF ∧ decodeWord w = decodeF w) ∨
    ∃ i, decodeWord w = some i ∧ encode i = w := by
  unfold decodeWord
  split
  case h_1 hop => exact .inl ⟨hop, rfl⟩
  case h_9 hop => exact .inr (.inl ⟨hop, rfl⟩)
  case h_15 hop => exact .inr (.inr (.inl ⟨hop, rfl⟩))
  case h_16 =>
    refine .inr (.inr (.inr (.inl ⟨?_, rfl⟩)))
    generalize opField w = op at *
    decide +revert
  all_goals refine .inr (.inr (.inr (.inr ⟨_, rfl, ?_⟩)))
  case h_2 | h_3 | h_11 | h_12 => exact packNnn_of_opField ‹_›
  case h_4 | h_5 | h_7 | h_8 | h_13 => exact packXkk_of_fields ‹_› rfl
  case h_6 | h_10 => exact packXyn_of_fields ‹_› rfl
  case h_14 hop => exact packXyn_of_fields hop (by simp)

theorem encode_of_decode0 {w : Word} {i : Instr} (hop : opField w = 0x0) (h : decode0 w = some i) :
    encode i = w := by
  unfold decode0 at h
  split at h <;> cases h <;> exact packXkk_of_fields hop ‹_›

theorem encode_of_decode8 {w : Word} {i : Instr} (hop : opField w = 0x8) (h : decode8 w = some i) :
    encode i = w := by
  unfold decode8 at h
  split at h <;> cases h <;> exact packXyn_of_fields hop ‹_›

theorem encode_of_decodeE {w : Word} {i : Instr} (hop : opField w = 0xE) (h : decodeE w = some i) :
    encode i = w := by
  unfold decodeE at h
  split at h <;> cases h <;> exact packXkk_of_fields hop ‹_›

theorem encode_of_decodeF {w : Word} {i : Instr} (hop : opField w = 0xF) (h : decodeF w = some i) :
    encode i = w := by
  unfold decodeF at h
  split at h <;> cases h <;> exact packXkk_of_fields hop ‹_›

/-- The decoder loses no bit of a word it knows: the ignored ones stay in the syntax (R84). -/
theorem encode_of_decodeWord {w : Word} {i : Instr} (h : decodeWord w = some i) : encode i = w := by
  obtain ⟨hop, hd⟩ | ⟨hop, hd⟩ | ⟨hop, hd⟩ | ⟨hop, hd⟩ | ⟨j, hd, hj⟩ := decodeWord_dispatch w <;> rw [hd] at h
  · exact encode_of_decode0 hop h
  · exact encode_of_decode8 hop h
  · exact encode_of_decodeE hop h
  · exact encode_of_decodeF hop h
  · cases h; exact hj

/-! ## The keys each family knows -/

theorem decode0_ne_none {w : Word} (h : kkField w ∈ [0xE0, 0xEE]) : decode0 w ≠ none := by
  unfold decode0
  split <;> simp_all

theorem decode8_ne_none {w : Word} (h : nField w ∈ [0x0, 0x1, 0x2, 0x3, 0x4, 0x5, 0x6, 0x7, 0xE]) :
    decode8 w ≠ none := by
  unfold decode8
  split <;> simp_all

theorem decodeE_ne_none {w : Word} (h : kkField w ∈ [0x9E, 0xA1]) : decodeE w ≠ none := by
  unfold decodeE
  split <;> simp_all

theorem decodeF_ne_none {w : Word} (h : kkField w ∈ [0x07, 0x0A, 0x15, 0x18, 0x1E, 0x29, 0x33, 0x55, 0x65]) :
    decodeF w ≠ none := by
  unfold decodeF
  split <;> simp_all

end Sys2Proof
end

section
/-! ## The rows of the opcode map (R82) -/

namespace Sys2Proof

open Laws

theorem OpcodeRow.matches_iff {r : OpcodeRow} {w : Word} : r.matches w = true ↔ w &&& r.mask = r.value := beq_iff_eq

/-- Every instruction's word is of its own row. -/
theorem rowMatch : ∀ i, RowMatch.Statement i
  | .cls a => RowMatch.cls a | .ret a => RowMatch.ret a | .jp a => RowMatch.jp a | .call a => RowMatch.call a
  | .seKk x k => RowMatch.seKk x k | .sneKk x k => RowMatch.sneKk x k | .seXy x y a => RowMatch.seXy x y a
  | .ldKk x k => RowMatch.ldKk x k | .addKk x k => RowMatch.addKk x k | .ldXy x y => RowMatch.ldXy x y
  | .orXy x y => RowMatch.orXy x y | .andXy x y => RowMatch.andXy x y | .xorXy x y => RowMatch.xorXy x y
  | .addXy x y => RowMatch.addXy x y | .sub x y => RowMatch.sub x y | .shr x a => RowMatch.shr x a
  | .subn x y => RowMatch.subn x y | .shl x a => RowMatch.shl x a | .sneXy x y a => RowMatch.sneXy x y a
  | .ldI a => RowMatch.ldI a | .jpV0 a => RowMatch.jpV0 a | .rnd x k => RowMatch.rnd x k
  | .drw x y n => RowMatch.drw x y n | .skp x => RowMatch.skp x | .sknp x => RowMatch.sknp x
  | .ldXDt x => RowMatch.ldXDt x | .ldXK x => RowMatch.ldXK x | .ldDtX x => RowMatch.ldDtX x
  | .ldStX x => RowMatch.ldStX x | .addIX x => RowMatch.addIX x | .ldFX x => RowMatch.ldFX x
  | .ldBX x => RowMatch.ldBX x | .ldMemX x => RowMatch.ldMemX x | .ldXMem x => RowMatch.ldXMem x

/-- A word that decodes is of the row of the instruction it decodes to. -/
theorem exists_rowOf_matches {w : Word} {i : Instr} (h : decodeWord w = some i) :
    ∃ r, rowOf i = some r ∧ r.matches w = true := by
  obtain ⟨r, hrow, hmask⟩ := rowMatch i
  rw [encode_of_decodeWord h] at hmask
  exact ⟨r, hrow, OpcodeRow.matches_iff.2 hmask⟩

theorem mem_opcodeRows_of_rowOf {i : Instr} {r : OpcodeRow} (h : rowOf i = some r) : r ∈ opcodeRows :=
  List.mem_of_getElem? h

/-- R82: two rows differ in a bit that both masks keep. -/
theorem opcodeRows_disjoint : ∀ r ∈ opcodeRows, ∀ r' ∈ opcodeRows,
    r.value &&& r'.mask = r'.value &&& r.mask → r = r' := by decide

theorem eq_of_matches {r r' : OpcodeRow} {w : Word} (hr : r ∈ opcodeRows) (hr' : r' ∈ opcodeRows)
    (h : r.matches w = true) (h' : r'.matches w = true) : r = r' := by
  rw [OpcodeRow.matches_iff] at h h'
  refine opcodeRows_disjoint r hr r' hr' ?_
  rw [← h, ← h', BitVec.and_assoc, BitVec.and_assoc, BitVec.and_comm r.mask]

/-! ## A word of a row decodes -/

theorem opField_of_matches {r : OpcodeRow} {w : Word} (hr : r ∈ opcodeRows) (h : r.matches w = true) :
    opField w = opField r.value := by
  have hmask : ∀ r ∈ opcodeRows, opField r.mask = BitVec.allOnes 4 := by decide
  rw [← OpcodeRow.matches_iff.1 h, opField_and, hmask r hr, BitVec.and_allOnes]

/-- The rows of a family keyed on `kk` keep all of `kk`, so a word of one of them has one of their keys. -/
theorem kkField_mem_of_matches {r : OpcodeRow} {w : Word} {op : Nibble} {keys : List Byte}
    (hfamily : ∀ r ∈ opcodeRows, opField r.value = op →
      kkField r.mask = BitVec.allOnes 8 ∧ kkField r.value ∈ keys)
    (hop : opField w = op) (hr : r ∈ opcodeRows) (h : r.matches w = true) : kkField w ∈ keys := by
  obtain ⟨hmask, hkey⟩ := hfamily r hr ((opField_of_matches hr h).symm.trans hop)
  rwa [← OpcodeRow.matches_iff.1 h, kkField_and, hmask, BitVec.and_allOnes] at hkey

/-- The same for a family keyed on `n`. -/
theorem nField_mem_of_matches {r : OpcodeRow} {w : Word} {op : Nibble} {keys : List Nibble}
    (hfamily : ∀ r ∈ opcodeRows, opField r.value = op →
      nField r.mask = BitVec.allOnes 4 ∧ nField r.value ∈ keys)
    (hop : opField w = op) (hr : r ∈ opcodeRows) (h : r.matches w = true) : nField w ∈ keys := by
  obtain ⟨hmask, hkey⟩ := hfamily r hr ((opField_of_matches hr h).symm.trans hop)
  rwa [← OpcodeRow.matches_iff.1 h, nField_and, hmask, BitVec.and_allOnes] at hkey

theorem decodeWord_ne_none_of_matches {r : OpcodeRow} {w : Word} (hr : r ∈ opcodeRows)
    (h : r.matches w = true) : decodeWord w ≠ none := by
  obtain ⟨hop, hd⟩ | ⟨hop, hd⟩ | ⟨hop, hd⟩ | ⟨hop, hd⟩ | ⟨i, hd, -⟩ := decodeWord_dispatch w <;> rw [hd]
  · exact decode0_ne_none (kkField_mem_of_matches (by decide) hop hr h)
  · exact decode8_ne_none (nField_mem_of_matches (by decide) hop hr h)
  · exact decodeE_ne_none (kkField_mem_of_matches (by decide) hop hr h)
  · exact decodeF_ne_none (kkField_mem_of_matches (by decide) hop hr h)
  · exact Option.some_ne_none i

/-- Settles O49: a decoded word matches its instruction's row, the rows are pairwise disjoint, and every row's words
decode. -/
theorem opcodeMapClassifiesEveryWord : Obligations.OpcodeMapClassifiesEveryWord := by
  refine fun w => ⟨fun i hi r hr => ?_, fun hnone r hr => ?_⟩
  · obtain ⟨own, hown, hmatch⟩ := exists_rowOf_matches hi
    constructor
    · intro h
      rw [hown, eq_of_matches (mem_opcodeRows_of_rowOf hown) hr hmatch h]
    · intro h
      cases hown.symm.trans h
      exact hmatch
  · exact Bool.eq_false_iff.2 fun h => decodeWord_ne_none_of_matches hr h hnone

end Sys2Proof
end

section
/-! ## What a handler can do: fault, or complete and set the timers it names -/

namespace Sys2Proof.Machine

/-- `DT` as the handler of `i` leaves it, before the tick (R191, R194, R226). -/
def State.handlerDt (s : State) : Instr → Byte
  | .ldDtX x => s.readV x
  | _ => s.dt

/-- `ST` as the handler of `i` leaves it, before the tick (R195, R226). -/
def State.handlerSt (s : State) : Instr → Byte
  | .ldStX x => s.readV x
  | _ => s.st

theorem handlerDt_of_ne {s : State} {i : Instr} (h : ∀ x, i ≠ .ldDtX x) : s.handlerDt i = s.dt := by
  unfold State.handlerDt
  split
  · exact absurd rfl (h _)
  · rfl

theorem handlerSt_of_ne {s : State} {i : Instr} (h : ∀ x, i ≠ .ldStX x) : s.handlerSt i = s.st := by
  unfold State.handlerSt
  split
  · exact absurd rfl (h _)
  · rfl

/-- The handler of `i` aborted the cycle that began in `s`: only a legal record of `i` at `pc0` is new (R214, R219). -/
def Aborts (i : Instr) (s t : State) : Prop :=
  ∃ r : FaultRecord, r.legal ∧ r.pc = s.pc ∧ r.word = some (encode i) ∧ t = { s with fault := some r }

/-- The handler of `i` ran to its end from `s`: no record is new, and the timers are what `i` makes them. -/
def Completes (i : Instr) (s t : State) : Prop :=
  t.fault = s.fault ∧ t.dt = s.handlerDt i ∧ t.st = s.handlerSt i

theorem aborts_stackFault {code : ErrorKind} (i : Instr) (s : State)
    (hcode : code = .stackOverflow ∨ code = .stackUnderflow) : Aborts i s (s.stackFault code i) := by
  refine ⟨⟨code, s.pc, some (encode i), none, none⟩, ?_, rfl, rfl, rfl⟩
  obtain rfl | rfl := hcode <;> exact ⟨Option.some_ne_none _, rfl, rfl⟩

theorem aborts_or_completes_of_accessing {i : Instr} {access : AccessKind} {base : Word} {count : Nat}
    {s done t : State} (h : accessing i access base count s done = .next t) (haccess : access ≠ .fetch)
    (hdone : Completes i s done) : Aborts i s t ∨ Completes i s t := by
  obtain ⟨-, rfl⟩ | ⟨-, rfl⟩ := accessing_cases h
  · exact .inr hdone
  · refine .inl ⟨⟨.outOfBoundsAccess, s.pc, some (encode i), some access, some (max base.toNat 0x1000)⟩, ?_,
      rfl, rfl, rfl⟩
    exact ⟨access, _, rfl, rfl, lt_max_of_lt_right (by decide), by simp [haccess]⟩

/-- All a handler can do, as far as the fault record and the timers show it. -/
theorem exec_aborts_or_completes {i : Instr} {s t : State} (h : exec i s = .next t) :
    Aborts i s t ∨ Completes i s t := by
  cases i
  case ret g =>
    by_cases hsp : s.sp.val = 0
    · rw [exec_ret_of_empty g hsp] at h
      cases h
      exact .inl (aborts_stackFault _ s (.inr rfl))
    · rw [exec_ret_of_nonempty g hsp] at h
      cases h
      exact .inr ⟨rfl, rfl, rfl⟩
  case call nnn =>
    by_cases hsp : s.sp.val = 16
    · rw [exec_call_of_full nnn hsp] at h
      cases h
      exact .inl (aborts_stackFault _ s (.inl rfl))
    · rw [exec_call_of_room nnn (by omega)] at h
      cases h
      exact .inr ⟨rfl, rfl, rfl⟩
  case ldXK x =>
    cases hk : s.lowestKey with
    | some k => rw [exec_ldXK_of_held x hk] at h; cases h; exact .inr ⟨rfl, rfl, rfl⟩
    | none => rw [exec_ldXK_of_none x hk] at h; cases h; exact .inr ⟨rfl, rfl, rfl⟩
  case drw | ldBX | ldMemX => exact aborts_or_completes_of_accessing h (by decide) ⟨rfl, rfl, rfl⟩
  case ldXMem =>
    refine aborts_or_completes_of_accessing h (by decide) ?_
    rw [loadBlock_eq]
    exact ⟨rfl, rfl, rfl⟩
  case seKk | sneKk | seXy | sneXy | skp | sknp =>
    cases h
    exact .inr ⟨skipIf_fault .., skipIf_dt .., skipIf_st ..⟩
  all_goals
    cases h
    exact .inr ⟨rfl, rfl, rfl⟩

theorem completes_of_exec {i : Instr} {s t : State} (h : exec i s = .next t) (ht : t.fault = none) :
    Completes i s t := by
  obtain ⟨r, -, -, -, rfl⟩ | hc := exec_aborts_or_completes h
  · cases ht
  · exact hc

/-- Every record the core can latch is of a fatal kind (R211). -/
theorem FaultRecord.legal.fatal {r : FaultRecord} (h : r.legal) : r.code.fatal = true := by
  obtain ⟨code, _, _, _, _⟩ := r
  cases code with
  | unknownOpcode => exact h.elim
  | outOfBoundsAccess | stackOverflow | stackUnderflow => rfl

end Sys2Proof.Machine
end

section
/-! ## Halted and waiting cycles, and the diagnostic of each kind of cycle (R100–R102, R107) -/

namespace Sys2Proof.Machine

theorem phase_of_halted {s : State} (hf : s.fault ≠ none) : s.phase = .halted := by
  rcases phase_cases s with ⟨-, hp⟩ | ⟨h, -⟩ | ⟨h, -⟩ | ⟨h, -⟩
  · exact hp
  all_goals exact absurd h hf

theorem phase_of_waiting {s : State} {r : Reg} (hf : s.fault = none) (hw : s.wait = some r) :
    s.phase = .waiting r := by
  simp only [State.phase, hf, hw]

/-- A waiting cycle with a key held (R102). -/
theorem waitCycle_of_held {s : State} {r : Reg} {k : KeyIndex} (h : s.lowestKey = some k) :
    s.waitCycle r = ({ s with wait := none }.writeV r (keyByte k)).tick := by
  rw [State.waitCycle, h]
  rfl

/-- A waiting cycle with none held (R102). -/
theorem waitCycle_of_none {s : State} {r : Reg} (h : s.lowestKey = none) : s.waitCycle r = s.tick := by
  rw [State.waitCycle, h]

@[simp] theorem waitCycle_dt (s : State) (r : Reg) : (s.waitCycle r).dt = tickByte s.dt := by
  unfold State.waitCycle
  split <;> rfl

@[simp] theorem waitCycle_st (s : State) (r : Reg) : (s.waitCycle r).st = tickByte s.st := by
  unfold State.waitCycle
  split <;> rfl

@[simp] theorem waitCycle_fault (s : State) (r : Reg) : (s.waitCycle r).fault = s.fault := by
  unfold State.waitCycle
  split <;> rfl

theorem diagnostic_of_halted {s : State} (hf : s.fault ≠ none) : diagnostic s = none := by
  rw [diagnostic, phase_of_halted hf]

theorem diagnostic_of_waiting {s : State} {r : Reg} (hf : s.fault = none) (hw : s.wait = some r) :
    diagnostic s = none := by
  rw [diagnostic, phase_of_waiting hf hw]

/-- A cycle that is neither halted nor waiting reports an unknown word, or the record it latched. -/
theorem diagnostic_of_active {s t : State} (h : step s = .next t) (hf : s.fault = none) (hw : s.wait = none) :
    (decodeWord s.fetchWord = none ∧ t.fault = none ∧
      diagnostic s = some ⟨⟨.unknownOpcode, s.pc, some s.fetchWord, none, none⟩, false⟩) ∨
    ((t.fault ≠ none ∨ decodeWord s.fetchWord ≠ none) ∧ diagnostic s = t.fault.map diagnosticOf) := by
  have hlatched : latched (cycle s) = t.fault := by rw [show cycle s = .next t from h]; rfl
  rcases phase_cases s with ⟨hf', -⟩ | ⟨-, r, hw', -⟩ | ⟨-, -, -, hp⟩ | ⟨-, -, -, ⟨hd, hp⟩ | ⟨i, hd, hp⟩⟩
  · exact absurd hf hf'
  · rw [hw] at hw'; cases hw'
  · rw [step_fetchFault hp] at h
    cases h
    exact .inr ⟨.inl (Option.some_ne_none _), by rw [diagnostic, hp, ← hlatched]⟩
  · rw [step_unknown hp] at h
    cases h
    exact .inl ⟨hd, hf, by rw [diagnostic, hp]; rfl⟩
  · exact .inr ⟨.inr (hd ▸ Option.some_ne_none i), by rw [diagnostic, hp, ← hlatched]⟩

/-- Only a cycle that does not wait latches a record, and only one of a fatal kind. -/
theorem not_waiting_and_fatal_of_latches {s t : State} {r : FaultRecord} (h : step s = .next t)
    (hf : s.fault = none) (ht : t.fault = some r) : s.wait = none ∧ r.code.fatal = true := by
  rcases step_cases h with ⟨hf', -⟩ | ⟨-, _, -, rfl⟩ | ⟨-, hw, -, rfl⟩ | ⟨-, -, -, -, rfl⟩ | ⟨-, hw, -, i, u, -, hu, rfl⟩
  · exact absurd hf hf'
  · rw [waitCycle_fault, hf] at ht; cases ht
  · cases ht; exact ⟨hw, rfl⟩
  · rw [tick_fault, advance_fault, hf] at ht; cases ht
  · rw [fault_endCycle] at ht
    obtain ⟨r', hlegal, -, -, rfl⟩ | ⟨hfault, -⟩ := exec_aborts_or_completes hu
    · cases ht; exact ⟨hw, hlegal.fatal⟩
    · rw [hfault, hf] at ht; cases ht

end Sys2Proof.Machine
end

section
/-! ## Which instruction a cycle runs, and the timers after it (R106) -/

namespace Sys2Proof.Machine

open Claims

theorem fetches_unique {s : State} {i j : Instr} (hi : Fetches s i) (hj : Fetches s j) : i = j := by
  obtain ⟨-, -, -, hi⟩ := hi
  obtain ⟨-, -, -, hj⟩ := hj
  exact Option.some.inj (hi.symm.trans hj)

/-- A cycle that neither was halted nor faulted ran no handler and ticked, or ran one handler to its end and then
ticked. -/
theorem step_completes_cases {s t : State} (h : step s = .next t) (hf : s.fault = none) (ht : t.fault = none) :
    ((∀ i, ¬ Fetches s i) ∧ t.dt = tickByte s.dt ∧ t.st = tickByte s.st) ∨
    ∃ i u, Fetches s i ∧ exec i s = .next u ∧ Completes i s u ∧ t = u.tick := by
  rcases step_cases h with ⟨hf', -⟩ | ⟨-, r, hw, rfl⟩ | ⟨-, -, -, rfl⟩ | ⟨-, -, -, hd, rfl⟩ |
    ⟨-, hw, hr, i, u, hd, hu, rfl⟩
  · exact absurd hf hf'
  · refine .inl ⟨fun i ⟨_, hw', _⟩ => ?_, waitCycle_dt s r, waitCycle_st s r⟩
    rw [hw] at hw'; cases hw'
  · cases ht
  · refine .inl ⟨fun i ⟨_, _, _, hd'⟩ => ?_, rfl, rfl⟩
    rw [hd] at hd'; cases hd'
  · rw [fault_endCycle] at ht
    exact .inr ⟨i, u, ⟨hf, hw, by omega, hd⟩, hu, completes_of_exec hu ht, by simp [ht]⟩

/-- Settles O38: a cycle without a handler ticks the old timers; one with a handler ticks those the handler left. -/
theorem timersTickOncePerCycle : Obligations.TimersTickOncePerCycle := by
  intro s t h hf ht
  obtain ⟨hnone, hdt, hst⟩ | ⟨i, u, hi, hu, ⟨-, hdt, hst⟩, rfl⟩ := step_completes_cases h hf ht
  · rw [hdt, hst, toNat_tickByte, toNat_tickByte]
    exact ⟨fun x hx => absurd hx (hnone _), fun _ => rfl, fun x hx => absurd hx (hnone _), fun _ => rfl,
      fun x hx => absurd hx (hnone _)⟩
  · rw [tick_dt, tick_st, toNat_tickByte, toNat_tickByte, hdt, hst]
    refine ⟨fun x hx => ?_, fun hx => ?_, fun x hx => ?_, fun hx => ?_, fun x hx => ?_⟩
    · rw [fetches_unique hi hx]; rfl
    · rw [handlerDt_of_ne fun x hix => hx x (hix ▸ hi)]
    · rw [fetches_unique hi hx]; rfl
    · rw [handlerSt_of_ne fun x hix => hx x (hix ▸ hi)]
    · cases fetches_unique hi hx
      cases hu
      rw [readV_tick, readV_writeV, if_pos rfl]

end Sys2Proof.Machine
end

section
/-! ## The cycle driver's statements about halted and waiting cycles and about diagnostics -/

namespace Sys2Proof.Machine

/-- Settles O44, by induction on the number of cycles. -/
theorem haltedCoreChangesNothing : Obligations.HaltedCoreChangesNothing := by
  intro n s hf
  refine ⟨?_, diagnostic_of_halted hf⟩
  have hstep : core.step s = .next s := step_halted (phase_of_halted hf)
  induction n with
  | zero => rfl
  | succ n ih => rw [run_succ n hstep, ih]

/-- Settles O34: the cycle is `waitCycle`, and the two cases are whether there is a lowest held key. -/
theorem waitingCycleSamplesTheKeys : Obligations.WaitingCycleSamplesTheKeys := by
  intro s r hf hw
  refine ⟨diagnostic_of_waiting hf hw, s.waitCycle r, step_waiting (phase_of_waiting hf hw), ?_, ?_, ?_, ?_⟩
  · rw [waitCycle_dt, toNat_tickByte]
  · rw [waitCycle_st, toNat_tickByte]
  · intro k hheld hlower
    rw [waitCycle_of_held (lowestKey_eq_some.2 ⟨hheld, hlower⟩)]
    refine ⟨?_, fun r' hr' => ?_, rfl⟩
    · rw [readV_tick, readV_writeV, if_pos rfl, toNat_keyByte]
    · rw [readV_tick, readV_writeV, if_neg hr']
      rfl
  · intro hnone
    rw [waitCycle_of_none (lowestKey_eq_none.2 hnone)]
    rfl

/-- Settles O45: a halted or waiting cycle reports nothing; any other reports its unknown word or the record it
latched, which is fatal. -/
theorem diagnosticsReportExactlyTheErrors : Obligations.DiagnosticsReportExactlyTheErrors := by
  intro s t h
  have hidle : s.fault ≠ none ∨ s.wait ≠ none → diagnostic s = none := by
    intro hidle
    by_cases hf : s.fault = none
    · obtain ⟨r, hw⟩ := Option.ne_none_iff_exists'.1 (hidle.resolve_left (not_not_intro hf))
      exact diagnostic_of_waiting hf hw
    · exact diagnostic_of_halted hf
  refine ⟨hidle, fun hf r ht => ?_, fun hf hw ht => ?_⟩
  · obtain ⟨hw, hfatal⟩ := not_waiting_and_fatal_of_latches h hf ht
    obtain ⟨-, ht', -⟩ | ⟨-, hdiag⟩ := diagnostic_of_active h hf hw
    · rw [ht] at ht'; cases ht'
    · rw [hdiag, ht, Option.map_some, diagnosticOf, hfatal]
  · obtain ⟨hd, -, hdiag⟩ | ⟨ht' | hd, hdiag⟩ := diagnostic_of_active h hf hw
    · rw [hdiag, hd]
    · exact absurd ht ht'
    · obtain ⟨i, hd⟩ := Option.ne_none_iff_exists'.1 hd
      rw [hdiag, ht, hd]
      rfl

end Sys2Proof.Machine
end

section
/-! ## The words of a row decode to its instruction (R78, R82) -/

namespace Sys2Proof

open Claims

/-- The words of a row of mask `F000` share their leading nibble, and nothing else is fixed. -/
theorem wordsDecodeTo_of_opField {value : Word} {f : Word → Instr}
    (h : ∀ w, opField w = opField value → decodeWord w = some (f w)) : WordsDecodeTo 0xF000 value f :=
  fun w hw => h w (opField_of_F000 hw)

/-- The words of a row of mask `F0FF` share their leading nibble and `kk`. -/
theorem wordsDecodeTo_of_opField_kkField {value : Word} {f : Word → Instr}
    (h : ∀ w, opField w = opField value → kkField w = kkField value → decodeWord w = some (f w)) :
    WordsDecodeTo 0xF0FF value f :=
  fun w hw => h w (opField_of_F0FF hw) (kkField_of_F0FF hw)

theorem decodeWord_of_opField_0 {w : Word} (h : opField w = 0x0) : decodeWord w = decode0 w := by
  rw [decodeWord, h]
  rfl

theorem decodeWord_of_opField_1 {w : Word} (h : opField w = 0x1) : decodeWord w = some (.jp (nnnField w)) := by
  rw [decodeWord, h]
  rfl

theorem decodeWord_of_opField_2 {w : Word} (h : opField w = 0x2) : decodeWord w = some (.call (nnnField w)) := by
  rw [decodeWord, h]
  rfl

theorem decodeWord_of_opField_3 {w : Word} (h : opField w = 0x3) :
    decodeWord w = some (.seKk (regOf (xField w)) (kkField w)) := by
  rw [decodeWord, h]
  rfl

theorem decodeWord_of_opField_4 {w : Word} (h : opField w = 0x4) :
    decodeWord w = some (.sneKk (regOf (xField w)) (kkField w)) := by
  rw [decodeWord, h]
  rfl

theorem decodeWord_of_opField_5 {w : Word} (h : opField w = 0x5) :
    decodeWord w = some (.seXy (regOf (xField w)) (regOf (yField w)) (nField w)) := by
  rw [decodeWord, h]
  rfl

theorem decodeWord_of_opField_9 {w : Word} (h : opField w = 0x9) :
    decodeWord w = some (.sneXy (regOf (xField w)) (regOf (yField w)) (nField w)) := by
  rw [decodeWord, h]
  rfl

theorem decodeWord_of_opField_B {w : Word} (h : opField w = 0xB) : decodeWord w = some (.jpV0 (nnnField w)) := by
  rw [decodeWord, h]
  rfl

theorem decode0_of_kkField_E0 {w : Word} (h : kkField w = 0xE0) : decode0 w = some (.cls (xField w)) := by
  rw [decode0, h]
  rfl

theorem decode0_of_kkField_EE {w : Word} (h : kkField w = 0xEE) : decode0 w = some (.ret (xField w)) := by
  rw [decode0, h]
  rfl

end Sys2Proof
end

section
/-! ## What the shared operations of the control-flow instructions do: the screen, the stack, the targets, the skip -/

namespace Sys2Proof.Machine

/-- A cleared framebuffer has no pixel on (R33, R120). -/
@[simp] theorem flat_replicate_zero (j : Nat) : Framebuffer.flat (Vector.replicate 32 0) j = false := by
  simp [Framebuffer.flat, Framebuffer.pixel]

/-- The top is the content of the slot below `SP` (R28). -/
theorem stack_getElem?_eq_top (s : State) : s.stack[s.sp.val - 1]? = some s.top := by
  have hslot : s.sp.val - 1 < 16 := by omega
  simp [State.top, Vector.getD, hslot]

/-- A pop takes one slot off a stack that is not empty (R28). -/
theorem popPc_sp_val {s : State} (h : s.sp.val ≠ 0) : s.popPc.sp.val = s.sp.val - 1 :=
  Fin.val_sub_one_of_ne_zero fun h0 => h (congrArg Fin.val h0)

/-- A push adds one slot to a stack with room (R28). -/
theorem push_sp_val (s : State) (w : Word) (h : s.sp.val < 16) : (s.push w).sp.val = s.sp.val + 1 :=
  Fin.val_add_one_of_lt h

/-- The pushed word is in the slot at the old `SP` (R28). -/
theorem push_stack_getElem?_self (s : State) (w : Word) (h : s.sp.val < 16) :
    (s.push w).stack[s.sp.val]? = some w := by
  simp [h]

/-- A push keeps every other slot (R28). -/
theorem push_stack_getElem?_of_ne (s : State) (w : Word) {j : Nat} (h : j ≠ s.sp.val) :
    (s.push w).stack[j]? = s.stack[j]? := by
  simp [h.symm]

/-- Zero extension keeps the number of an address (R72). -/
@[simp] theorem toNat_zextAddr (nnn : Addr) : (zextAddr nnn).toNat = nnn.toNat :=
  BitVec.toNat_setWidth_of_le (by decide)

/-- Zero extension keeps the number of a byte (R7). -/
@[simp] theorem toNat_zextByte (b : Byte) : (zextByte b).toNat = b.toNat :=
  BitVec.toNat_setWidth_of_le (by decide)

/-- A byte and an address sum to at most 13 bits, so the 16-bit sum is exact (R124). -/
theorem toNat_zextByte_add_zextAddr (b : Byte) (nnn : Addr) :
    (zextByte b + zextAddr nnn).toNat = b.toNat + nnn.toNat := by
  have hb := b.isLt
  have hn := nnn.isLt
  rw [BitVec.toNat_add_of_lt (by rw [toNat_zextByte, toNat_zextAddr]; omega), toNat_zextByte, toNat_zextAddr]

/-- A skip after the advance changes `PC` alone, by 4 or by 2 (R104, R129). -/
theorem advance_skipIf (s : State) (c : Bool) :
    s.advance.skipIf c = { s with pc := if c then s.pc + 4 else s.pc + 2 } := by
  cases c with
  | false => rfl
  | true => simp only [State.skipIf, State.advance, add_two_two, if_true]

/-- A skip on equality (R125, R127). -/
theorem advance_skipIf_beq (s : State) (a b : Byte) :
    s.advance.skipIf (a == b) = { s with pc := if a = b then s.pc + 4 else s.pc + 2 } := by
  simp only [advance_skipIf, beq_iff_eq]

/-- A skip on inequality (R126, R128). -/
theorem advance_skipIf_bne (s : State) (a b : Byte) :
    s.advance.skipIf (a != b) = { s with pc := if a = b then s.pc + 2 else s.pc + 4 } := by
  simp only [advance_skipIf, bne_iff_ne, ite_not]

end Sys2Proof.Machine
end

section
/-! ## The statements of 41_control_flow.md about one instruction -/

namespace Sys2Proof.Machine

/-- Settles O1: the handler's framebuffer is the cleared one, and it writes nothing else. -/
theorem clsTurnsEveryPixelOff : Obligations.ClsTurnsEveryPixelOff := by
  refine ⟨wordsDecodeTo_of_opField_kkField fun w hop hkk => ?_, fun ignored s => ⟨_, rfl, fun j _ => ?_, rfl⟩⟩
  · rw [decodeWord_of_opField_0 hop, decode0_of_kkField_E0 hkk]
  · exact flat_replicate_zero j

/-- Settles O2: the two branches of `RET`, and what a pop reads. -/
theorem retPopsReturnAddressOrUnderflows : Obligations.RetPopsReturnAddressOrUnderflows := by
  refine ⟨wordsDecodeTo_of_opField_kkField fun w hop hkk => ?_, fun ignored s => ⟨fun hsp => ?_, fun hsp => ?_⟩⟩
  · rw [decodeWord_of_opField_0 hop, decode0_of_kkField_EE hkk]
  · have hval : s.advance.popPc.sp.val = s.sp.val - 1 := popPc_sp_val hsp
    refine ⟨_, exec_ret_of_nonempty ignored hsp, hval, ?_, rfl⟩
    rw [hval]
    exact stack_getElem?_eq_top s
  · exact exec_ret_of_empty ignored hsp

/-- Settles O3: the two branches of `CALL`, and what a push writes. -/
theorem callPushesReturnAddressOrOverflows : Obligations.CallPushesReturnAddressOrOverflows := by
  refine ⟨wordsDecodeTo_of_opField fun _ => decodeWord_of_opField_2, fun nnn s => ⟨fun hsp => ?_, fun hsp => ?_⟩⟩
  · exact ⟨_, exec_call_of_room nnn hsp, push_sp_val s.advance (s.pc + 2) hsp,
      push_stack_getElem?_self s.advance (s.pc + 2) hsp,
      fun j hj => push_stack_getElem?_of_ne s.advance (s.pc + 2) hj, toNat_zextAddr nnn, rfl⟩
  · exact exec_call_of_full nnn hsp

/-- Settles O4: zero extension keeps `nnn`, and `V0 + nnn` does not wrap. -/
theorem jumpsReachTheirTargets : Obligations.JumpsReachTheirTargets :=
  ⟨wordsDecodeTo_of_opField fun _ => decodeWord_of_opField_1,
    wordsDecodeTo_of_opField fun _ => decodeWord_of_opField_B,
    fun nnn s => ⟨⟨_, rfl, toNat_zextAddr nnn, rfl⟩, ⟨_, rfl, toNat_zextByte_add_zextAddr (s.readV 0) nnn, rfl⟩⟩⟩

/-- Settles O5: both handlers are a skip after the advance. -/
theorem immediateSkipsCompareBytes : Obligations.ImmediateSkipsCompareBytes :=
  ⟨wordsDecodeTo_of_opField fun _ => decodeWord_of_opField_3,
    wordsDecodeTo_of_opField fun _ => decodeWord_of_opField_4,
    fun x kk s => ⟨congrArg Host.Outcome.next (advance_skipIf_beq s (s.readV x) kk),
      congrArg Host.Outcome.next (advance_skipIf_bne s (s.readV x) kk)⟩⟩

/-- Settles O6: both handlers are a skip after the advance, and neither reads the low nibble. -/
theorem registerSkipsCompareBytes : Obligations.RegisterSkipsCompareBytes :=
  ⟨wordsDecodeTo_of_opField fun _ => decodeWord_of_opField_5,
    wordsDecodeTo_of_opField fun _ => decodeWord_of_opField_9,
    fun x y _ s => ⟨congrArg Host.Outcome.next (advance_skipIf_beq s (s.readV x) (s.readV y)),
      congrArg Host.Outcome.next (advance_skipIf_bne s (s.readV x) (s.readV y))⟩⟩

end Sys2Proof.Machine
end

section
/-! ## The words of the arithmetic rows decode to their instructions (R79, R82) -/

namespace Sys2Proof

open Claims

theorem decodeWord_of_opField_6 {w : Word} (h : opField w = 0x6) :
    decodeWord w = some (.ldKk (regOf (xField w)) (kkField w)) := by
  rw [decodeWord, h]
  rfl

theorem decodeWord_of_opField_7 {w : Word} (h : opField w = 0x7) :
    decodeWord w = some (.addKk (regOf (xField w)) (kkField w)) := by
  rw [decodeWord, h]
  rfl

theorem decodeWord_of_opField_8 {w : Word} (h : opField w = 0x8) : decodeWord w = decode8 w := by
  rw [decodeWord, h]
  rfl

theorem decode8_of_nField_0 {w : Word} (h : nField w = 0x0) :
    decode8 w = some (.ldXy (regOf (xField w)) (regOf (yField w))) := by
  rw [decode8, h]
  rfl

theorem decode8_of_nField_1 {w : Word} (h : nField w = 0x1) :
    decode8 w = some (.orXy (regOf (xField w)) (regOf (yField w))) := by
  rw [decode8, h]
  rfl

theorem decode8_of_nField_2 {w : Word} (h : nField w = 0x2) :
    decode8 w = some (.andXy (regOf (xField w)) (regOf (yField w))) := by
  rw [decode8, h]
  rfl

theorem decode8_of_nField_3 {w : Word} (h : nField w = 0x3) :
    decode8 w = some (.xorXy (regOf (xField w)) (regOf (yField w))) := by
  rw [decode8, h]
  rfl

theorem decode8_of_nField_4 {w : Word} (h : nField w = 0x4) :
    decode8 w = some (.addXy (regOf (xField w)) (regOf (yField w))) := by
  rw [decode8, h]
  rfl

theorem decode8_of_nField_5 {w : Word} (h : nField w = 0x5) :
    decode8 w = some (.sub (regOf (xField w)) (regOf (yField w))) := by
  rw [decode8, h]
  rfl

theorem decode8_of_nField_6 {w : Word} (h : nField w = 0x6) :
    decode8 w = some (.shr (regOf (xField w)) (yField w)) := by
  rw [decode8, h]
  rfl

theorem decode8_of_nField_7 {w : Word} (h : nField w = 0x7) :
    decode8 w = some (.subn (regOf (xField w)) (regOf (yField w))) := by
  rw [decode8, h]
  rfl

theorem decode8_of_nField_E {w : Word} (h : nField w = 0xE) :
    decode8 w = some (.shl (regOf (xField w)) (yField w)) := by
  rw [decode8, h]
  rfl

/-- The words of a row of the 8 family share the leading nibble 8 and `n`. -/
theorem wordsDecodeTo_of_decode8 {value : Word} {f : Word → Instr} (hop : opField value = 0x8)
    (h : ∀ w, nField w = nField value → decode8 w = some (f w)) : WordsDecodeTo 0xF00F value f := fun w hw =>
  (decodeWord_of_opField_8 ((opField_of_F00F hw).trans hop)).trans (h w (nField_of_F00F hw))

end Sys2Proof
end

section
/-! ## The results and flags of the arithmetic instructions as numbers (R34, R140) -/

namespace Sys2Proof.Machine

/-- A flag is 1 or 0 (R34). -/
theorem toNat_flagByte (c : Bool) : (flagByte c).toNat = if c then 1 else 0 := by
  cases c <;> rfl

/-- `ADD` keeps the low 8 bits of the exact sum (R142, R147). -/
theorem toNat_addResult (a b : Byte) : (addResult a b).toNat = (a.toNat + b.toNat) % 256 :=
  BitVec.toNat_ofNat _ 8

/-- The carry says whether the exact sum exceeds 255 (R147). -/
theorem toNat_addFlag (a b : Byte) : (addFlag a b).toNat = if a.toNat + b.toNat > 255 then 1 else 0 := by
  simp only [addFlag, toNat_flagByte, decide_eq_true_eq]

/-- The 256 added before the truncated subtraction keeps it exact and drops out of the residue (R148, R150). -/
theorem toNat_subResult (a b : Byte) : ((subResult a b).toNat : Int) = (a.toNat - b.toNat : Int) % 256 := by
  have hb := b.isLt
  rw [subResult, BitVec.toNat_ofNat]
  omega

/-- The flag of a subtraction is the strict comparison (R148, R150). -/
theorem toNat_subFlag (a b : Byte) : (subFlag a b).toNat = if a.toNat > b.toNat then 1 else 0 := by
  simp only [subFlag, toNat_flagByte, decide_eq_true_eq]

/-- A right shift halves (R149). -/
theorem toNat_shrResult (a : Byte) : (shrResult a).toNat = a.toNat / 2 := by
  rw [shrResult, BitVec.toNat_ushiftRight, Nat.shiftRight_eq_div_pow]

/-- The mask 1 keeps the parity (R149, R151). -/
theorem toNat_and_one (a : Byte) : (a &&& 1).toNat = a.toNat % 2 :=
  Nat.and_one_is_mod a.toNat

/-- The bit a right shift drops is the parity (R149). -/
theorem toNat_shrFlag (a : Byte) : (shrFlag a).toNat = a.toNat % 2 :=
  toNat_and_one a

/-- A left shift doubles, modulo 256 (R151). -/
theorem toNat_shlResult (a : Byte) : (shlResult a).toNat = 2 * a.toNat % 256 := by
  rw [shlResult, BitVec.toNat_shiftLeft, Nat.shiftLeft_eq, Nat.mul_comm]

/-- The bit a left shift drops is bit 7, the 128s of the number (R151). -/
theorem toNat_shlFlag (a : Byte) : (shlFlag a).toNat = a.toNat / 128 := by
  have ha := a.isLt
  rw [shlFlag, toNat_and_one, BitVec.toNat_ushiftRight, Nat.shiftRight_eq_div_pow]
  omega

end Sys2Proof.Machine
end

section
/-! ## What an instruction that writes one register, or one register and then the flag, leaves in the registers -/

namespace Sys2Proof.Machine

open Claims

/-- A written register holds the value written. -/
theorem readV_writeV_self (s : State) (x : Reg) (b : Byte) : (s.writeV x b).readV x = b := by
  rw [readV_writeV, if_pos rfl]

/-- A handler that writes `Vx` after the advance keeps every other register, `VF` included. -/
theorem keepsRegisters_advance_writeV (s : State) (x : Reg) (b : Byte) :
    KeepsRegisters s (s.advance.writeV x b) (· = x) := fun r hr => by
  rw [readV_writeV, if_neg hr, readV_advance]

/-- `VF` holds the flag, even when it is also the result's register (R152). -/
theorem readV_writeFlagged_flag (s : State) (x : Reg) (result flag : Byte) :
    (s.writeFlagged x result flag).readV 15 = flag := by
  rw [readV_writeFlagged, if_pos rfl]

/-- The flag does not overwrite a result that is in another register (R152). -/
theorem readV_writeFlagged_result (s : State) {x : Reg} (result flag : Byte) (hx : x ≠ 15) :
    (s.writeFlagged x result flag).readV x = result := by
  rw [readV_writeFlagged, if_neg hx, if_pos rfl]

/-- A handler that writes `Vx` and the flag after the advance keeps every other register. -/
theorem keepsRegisters_advance_writeFlagged (s : State) (x : Reg) (result flag : Byte) :
    KeepsRegisters s (s.advance.writeFlagged x result flag) (fun r => r = x ∨ r = 15) := fun r hr => by
  rw [readV_writeFlagged, if_neg (hr ∘ .inr), if_neg (hr ∘ .inl), readV_advance]

end Sys2Proof.Machine
end

section
/-! ## The statements of 42_arithmetic.md about results and flags -/

namespace Sys2Proof.Machine

/-- Settles O11: the sum and the carry as numbers, and the flag is written last. -/
theorem addLeavesSumAndCarry : Obligations.AddLeavesSumAndCarry := by
  refine ⟨wordsDecodeTo_of_decode8 rfl fun _ => decode8_of_nField_4,
    fun x y s => ⟨_, rfl, fun hx => ?_, ?_, keepsRegisters_advance_writeFlagged s x _ _, rfl⟩⟩
  · rw [readV_writeFlagged_result _ _ _ hx, toNat_addResult]
  · rw [readV_writeFlagged_flag, toNat_addFlag]

/-- Settles O12: `SUBN` is `SUB` with the operands exchanged. -/
theorem subtractionsSetStrictFlag : Obligations.SubtractionsSetStrictFlag := by
  refine ⟨wordsDecodeTo_of_decode8 rfl fun _ => decode8_of_nField_5,
    wordsDecodeTo_of_decode8 rfl fun _ => decode8_of_nField_7, fun x y s =>
    ⟨⟨_, rfl, fun hx => ?_, ?_, keepsRegisters_advance_writeFlagged s x _ _, rfl⟩,
      ⟨_, rfl, fun hx => ?_, ?_, keepsRegisters_advance_writeFlagged s x _ _, rfl⟩⟩⟩
  · rw [readV_writeFlagged_result _ _ _ hx, toNat_subResult]
  · rw [readV_writeFlagged_flag, toNat_subFlag]
  · rw [readV_writeFlagged_result _ _ _ hx, toNat_subResult]
  · rw [readV_writeFlagged_flag, toNat_subFlag]

/-- Settles O13: both shifts and their bits out as numbers; neither handler reads the `y` field. -/
theorem shiftsReportTheBitOut : Obligations.ShiftsReportTheBitOut := by
  refine ⟨wordsDecodeTo_of_decode8 rfl fun _ => decode8_of_nField_6,
    wordsDecodeTo_of_decode8 rfl fun _ => decode8_of_nField_E, fun x _ s =>
    ⟨⟨_, rfl, fun hx => ?_, ?_, keepsRegisters_advance_writeFlagged s x _ _, rfl⟩,
      ⟨_, rfl, fun hx => ?_, ?_, keepsRegisters_advance_writeFlagged s x _ _, rfl⟩⟩⟩
  · rw [readV_writeFlagged_result _ _ _ hx, toNat_shrResult]
  · rw [readV_writeFlagged_flag, toNat_shrFlag]
  · rw [readV_writeFlagged_result _ _ _ hx, toNat_shlResult]
  · rw [readV_writeFlagged_flag, toNat_shlFlag]

/-- Settles O8: both handlers are one register write after the advance. -/
theorem loadsWriteOneRegister : Obligations.LoadsWriteOneRegister :=
  ⟨wordsDecodeTo_of_opField fun _ => decodeWord_of_opField_6,
    wordsDecodeTo_of_decode8 rfl fun _ => decode8_of_nField_0, fun x _ _ s =>
    ⟨⟨_, rfl, readV_writeV_self _ x _, keepsRegisters_advance_writeV s x _, rfl⟩,
      ⟨_, rfl, readV_writeV_self _ x _, keepsRegisters_advance_writeV s x _, rfl⟩⟩⟩

/-- Settles O9: the handler writes the truncated sum to its one register. -/
theorem addImmediateWrapsWithoutCarry : Obligations.AddImmediateWrapsWithoutCarry := by
  refine ⟨wordsDecodeTo_of_opField fun _ => decodeWord_of_opField_7,
    fun x kk s => ⟨_, rfl, ?_, keepsRegisters_advance_writeV s x _, rfl⟩⟩
  rw [readV_writeV_self, toNat_addResult]

/-- Settles O10: each handler is one register write, and the library says the bits of its value. -/
theorem bitwiseOpsLeaveTheFlag : Obligations.BitwiseOpsLeaveTheFlag := by
  refine ⟨wordsDecodeTo_of_decode8 rfl fun _ => decode8_of_nField_1,
    wordsDecodeTo_of_decode8 rfl fun _ => decode8_of_nField_2,
    wordsDecodeTo_of_decode8 rfl fun _ => decode8_of_nField_3, fun x y s =>
    ⟨⟨_, rfl, fun b => ?_, keepsRegisters_advance_writeV s x _, rfl⟩,
      ⟨_, rfl, fun b => ?_, keepsRegisters_advance_writeV s x _, rfl⟩,
      ⟨_, rfl, fun b => ?_, keepsRegisters_advance_writeV s x _, rfl⟩⟩⟩
  · rw [readV_writeV_self, BitVec.getLsbD_or]
  · rw [readV_writeV_self, BitVec.getLsbD_and]
  · rw [readV_writeV_self, BitVec.getLsbD_xor]

end Sys2Proof.Machine
end

section
/-! ## The words of the draw row, and the pixels under a sprite in the terms of the statements (R82, R170–R172) -/

namespace Sys2Proof

theorem decodeWord_of_opField_D {w : Word} (h : opField w = 0xD) :
    decodeWord w = some (.drw (regOf (xField w)) (regOf (yField w)) (nField w).toNat) := by
  rw [decodeWord, h]
  rfl

end Sys2Proof

namespace Sys2Proof.Machine

open Claims

/-- The flat index of a row and a column inside the screen is that pixel (R33). -/
theorem fbView_row_col (s : State) {row col : Nat} (hrow : row < 32) (hcol : col < 64) :
    s.fbView (row * 64 + col) = s.fb.pixel ⟨row, hrow⟩ ⟨col, hcol⟩ := by
  have hr : Fin.ofNat 32 ((row * 64 + col) / 64) = ⟨row, hrow⟩ := by
    rw [Fin.ext_iff, Fin.val_ofNat, Fin.val_mk]; omega
  have hc : Fin.ofNat 64 (row * 64 + col) = ⟨col, hcol⟩ := by
    rw [Fin.ext_iff, Fin.val_ofNat, Fin.val_mk]; omega
  rw [State.fbView, Framebuffer.flat, hr, hc]

/-- The statements' covered pixels are the ones `drawSprite` hits: the loops' wraps are the remainders (R172). -/
theorem spriteCovers_iff_spriteHit (s : State) (n : Nat) (px py : Byte) {row col : Nat}
    (hrow : row < 32) (hcol : col < 64) :
    SpriteCovers s n px.toNat py.toNat row col ↔
      spriteHit s.mem s.i.toNat n px py ⟨row, hrow⟩ ⟨col, hcol⟩ := by
  have hwrapRow : ∀ r, wrapRow py r = ⟨row, hrow⟩ ↔ (py.toNat + r) % 32 = row := fun _ => Fin.ext_iff
  have hwrapCol : ∀ c, wrapCol px c = ⟨col, hcol⟩ ↔ (px.toNat + c) % 64 = col := fun _ => Fin.ext_iff
  simp only [spriteHit, colHit, hwrapRow, hwrapCol, spriteBit]
  constructor
  · rintro ⟨r, c, hr, hc, hbit, er, ec⟩
    exact ⟨r, hr, er, c, hc, hbit, ec⟩
  · rintro ⟨r, hr, er, c, hc, hbit, ec⟩
    exact ⟨r, c, hr, hc, hbit, er, ec⟩

end Sys2Proof.Machine
end

section
/-! ## The state after a draw whose sprite lies in memory (R170, R173) -/

namespace Sys2Proof.Machine

open Claims

/-- The sprite of `DRW Vx,Vy,n` drawn on the framebuffer of `s`, and whether it collided. -/
def State.drawn (s : State) (x y : Reg) (n : Nat) : Framebuffer × Bool :=
  drawSprite s.mem s.i.toNat n (s.readV x) (s.readV y) s.fb

/-- `s` after a `DRW Vx,Vy,n` that did not fault: the advance, the pixels, and `VF` last. -/
def State.afterDraw (s : State) (x y : Reg) (n : Nat) : State :=
  { s.advance with fb := (s.drawn x y n).1 }.writeV regVF (flagByte (s.drawn x y n).2)

/-- A `DRW` of no rows, or whose sprite ends inside memory (R170, R174). -/
theorem exec_drw_of_fits {s : State} (x y : Reg) {n : Nat} (h : n = 0 ∨ s.i.toNat + n ≤ 0x1000) :
    exec (.drw x y n) s = .next (s.afterDraw x y n) := by
  rw [exec, execDrw, accessing_of_fits h]
  rfl

/-- A `DRW` whose sprite passes `0xFFF` (R170, R213). -/
theorem exec_drw_of_passes {s : State} (x y : Reg) {n : Nat} (h0 : 0 < n) (h : 0x1000 < s.i.toNat + n) :
    exec (.drw x y n) s =
      .next (AccessFault s (some (encode (.drw x y n))) .spriteRead (max s.i.toNat 0x1000)) := by
  rw [exec, execDrw, accessing_of_passes h0 h]
  rfl

/-- A draw keeps every register but `VF` (R170). -/
theorem keepsRegisters_afterDraw (s : State) (x y : Reg) (n : Nat) :
    KeepsRegisters s (s.afterDraw x y n) (· = 15) :=
  keepsRegisters_advance_writeV s 15 (flagByte (s.drawn x y n).2)

/-- `VF` ends as the collision (R173). -/
theorem readV_afterDraw_flag (s : State) (x y : Reg) (n : Nat) :
    (s.afterDraw x y n).readV 15 = flagByte (s.drawn x y n).2 :=
  readV_writeV_self _ 15 _

section
variable {s : State} {x y : Reg} {n row col : Nat}

/-- A draw flips a pixel exactly if the sprite hits it (R170). -/
theorem fbView_afterDraw (hn : n ≤ 15) (hrow : row < 32) (hcol : col < 64) :
    (s.afterDraw x y n).fbView (row * 64 + col) = (s.fbView (row * 64 + col) ^^
      decide (spriteHit s.mem s.i.toNat n (s.readV x) (s.readV y) ⟨row, hrow⟩ ⟨col, hcol⟩)) := by
  obtain ⟨hpixel, -⟩ := drawSprite_spec s.mem s.i.toNat (s.readV x) (s.readV y) s.fb n (by omega)
  rw [fbView_row_col _ hrow hcol, fbView_row_col _ hrow hcol]
  exact hpixel _ _

theorem fbView_afterDraw_of_covered (hn : n ≤ 15) (hrow : row < 32) (hcol : col < 64)
    (h : SpriteCovers s n (s.readV x).toNat (s.readV y).toNat row col) :
    (s.afterDraw x y n).fbView (row * 64 + col) = !s.fbView (row * 64 + col) := by
  rw [spriteCovers_iff_spriteHit s n _ _ hrow hcol] at h
  rw [fbView_afterDraw hn hrow hcol, decide_eq_true h, Bool.xor_true]

theorem fbView_afterDraw_of_not_covered (hn : n ≤ 15) (hrow : row < 32) (hcol : col < 64)
    (h : ¬ SpriteCovers s n (s.readV x).toNat (s.readV y).toNat row col) :
    (s.afterDraw x y n).fbView (row * 64 + col) = s.fbView (row * 64 + col) := by
  rw [spriteCovers_iff_spriteHit s n _ _ hrow hcol] at h
  rw [fbView_afterDraw hn hrow hcol, decide_eq_false h, Bool.xor_false]

/-- The draw collides exactly when a covered pixel was on (R173). -/
theorem drawn_collides_iff (hn : n ≤ 15) :
    (s.drawn x y n).2 = true ↔ ∃ row < 32, ∃ col < 64,
      SpriteCovers s n (s.readV x).toNat (s.readV y).toNat row col ∧ s.fbView (row * 64 + col) = true := by
  obtain ⟨-, hcollides⟩ := drawSprite_spec s.mem s.i.toNat (s.readV x) (s.readV y) s.fb n (by omega)
  rw [State.drawn, hcollides, decide_eq_true_iff]
  constructor
  · rintro ⟨r, c, hhit, hon⟩
    refine ⟨r, r.isLt, c, c.isLt, (spriteCovers_iff_spriteHit s n _ _ r.isLt c.isLt).2 hhit, ?_⟩
    rw [fbView_row_col s r.isLt c.isLt]
    exact hon
  · rintro ⟨row, hrow, col, hcol, hcovers, hon⟩
    rw [fbView_row_col s hrow hcol] at hon
    exact ⟨_, _, (spriteCovers_iff_spriteHit s n _ _ hrow hcol).1 hcovers, hon⟩

end

/-- Settles O15: the two branches of the bounds check, and what `drawSprite_spec` says of each pixel and of the
collision. -/
theorem drwFlipsExactlyTheCoveredPixels : Obligations.DrwFlipsExactlyTheCoveredPixels := by
  refine ⟨wordsDecodeTo_of_opField fun _ => decodeWord_of_opField_D,
    fun x y n s hn => ⟨fun hfits => ?_, fun h0 hpasses => ?_⟩⟩
  · refine ⟨_, exec_drw_of_fits x y (by omega), fun row hrow col hcol =>
      ⟨fbView_afterDraw_of_covered hn hrow hcol, fbView_afterDraw_of_not_covered hn hrow hcol⟩,
      fun hcollides => ?_, fun hoff => ?_, keepsRegisters_afterDraw s x y n, rfl⟩
    · rw [readV_afterDraw_flag, (drawn_collides_iff hn).2 hcollides]
      rfl
    · have hmisses : (s.drawn x y n).2 = false := by
        rw [← Bool.not_eq_true, drawn_collides_iff hn]
        rintro ⟨row, hrow, col, hcol, hcovers, hon⟩
        rw [hoff row hrow col hcol hcovers] at hon
        cases hon
      rw [readV_afterDraw_flag, hmisses]
      rfl
  · exact exec_drw_of_passes x y h0 (by omega)

end Sys2Proof.Machine
end

section
/-! ## The words of the key-skip rows, the key they test, and the statement of 44_key_skip.md about them -/

namespace Sys2Proof

theorem decodeWord_of_opField_E {w : Word} (h : opField w = 0xE) : decodeWord w = decodeE w := by
  rw [decodeWord, h]
  rfl

theorem decodeE_of_kkField_9E {w : Word} (h : kkField w = 0x9E) :
    decodeE w = some (.skp (regOf (xField w))) := by
  rw [decodeE, h]
  rfl

theorem decodeE_of_kkField_A1 {w : Word} (h : kkField w = 0xA1) :
    decodeE w = some (.sknp (regOf (xField w))) := by
  rw [decodeE, h]
  rfl

end Sys2Proof

namespace Sys2Proof.Machine

/-- The mask `0xF` keeps the residue modulo 16 (R182). -/
theorem keyOf_val (b : Byte) : (keyOf b).val = b.toNat % 16 := by
  have hmask : (b &&& 0xF).toNat = b.toNat % 16 := Nat.and_two_pow_sub_one_eq_mod b.toNat 4
  rw [keyOf, Fin.val_ofNat, hmask, Nat.mod_mod]

/-- A skip on the opposite condition (R181). -/
theorem advance_skipIf_not (s : State) (c : Bool) :
    s.advance.skipIf (!c) = { s with pc := if c then s.pc + 2 else s.pc + 4 } := by
  rw [advance_skipIf]
  cases c <;> rfl

/-- Settles O17: the key both handlers test is the residue of `Vx`, and each is a skip after the advance. -/
theorem keySkipsTestTheMaskedIndex : Obligations.KeySkipsTestTheMaskedIndex := by
  refine ⟨wordsDecodeTo_of_opField_kkField fun w hop hkk => ?_,
    wordsDecodeTo_of_opField_kkField fun w hop hkk => ?_, fun x s k hk => ?_⟩
  · rw [decodeWord_of_opField_E hop, decodeE_of_kkField_9E hkk]
  · rw [decodeWord_of_opField_E hop, decodeE_of_kkField_A1 hkk]
  · have hkey : keyOf (s.readV x) = k := Fin.ext ((keyOf_val _).trans hk.symm)
    constructor
    · rw [exec, execSkp, advance_skipIf, hkey]
    · rw [exec, execSknp, advance_skipIf_not, hkey]

end Sys2Proof.Machine
end

section
/-! ## The words of the rows of 45_register_timer_memory.md decode to their instructions (R81, R82) -/

namespace Sys2Proof

open Claims

theorem decodeWord_of_opField_A {w : Word} (h : opField w = 0xA) : decodeWord w = some (.ldI (nnnField w)) := by
  rw [decodeWord, h]
  rfl

theorem decodeWord_of_opField_F {w : Word} (h : opField w = 0xF) : decodeWord w = decodeF w := by
  rw [decodeWord, h]
  rfl

theorem decodeF_of_kkField_07 {w : Word} (h : kkField w = 0x07) :
    decodeF w = some (.ldXDt (regOf (xField w))) := by
  rw [decodeF, h]
  rfl

theorem decodeF_of_kkField_0A {w : Word} (h : kkField w = 0x0A) :
    decodeF w = some (.ldXK (regOf (xField w))) := by
  rw [decodeF, h]
  rfl

theorem decodeF_of_kkField_15 {w : Word} (h : kkField w = 0x15) :
    decodeF w = some (.ldDtX (regOf (xField w))) := by
  rw [decodeF, h]
  rfl

theorem decodeF_of_kkField_18 {w : Word} (h : kkField w = 0x18) :
    decodeF w = some (.ldStX (regOf (xField w))) := by
  rw [decodeF, h]
  rfl

theorem decodeF_of_kkField_1E {w : Word} (h : kkField w = 0x1E) :
    decodeF w = some (.addIX (regOf (xField w))) := by
  rw [decodeF, h]
  rfl

theorem decodeF_of_kkField_29 {w : Word} (h : kkField w = 0x29) :
    decodeF w = some (.ldFX (regOf (xField w))) := by
  rw [decodeF, h]
  rfl

theorem decodeF_of_kkField_33 {w : Word} (h : kkField w = 0x33) :
    decodeF w = some (.ldBX (regOf (xField w))) := by
  rw [decodeF, h]
  rfl

theorem decodeF_of_kkField_55 {w : Word} (h : kkField w = 0x55) :
    decodeF w = some (.ldMemX (regOf (xField w))) := by
  rw [decodeF, h]
  rfl

theorem decodeF_of_kkField_65 {w : Word} (h : kkField w = 0x65) :
    decodeF w = some (.ldXMem (regOf (xField w))) := by
  rw [decodeF, h]
  rfl

/-- The words of a row of the F family share the leading nibble F and `kk`. -/
theorem wordsDecodeTo_of_decodeF {value : Word} {f : Word → Instr} (hop : opField value = 0xF)
    (h : ∀ w, kkField w = kkField value → decodeF w = some (f w)) : WordsDecodeTo 0xF0FF value f :=
  wordsDecodeTo_of_opField_kkField fun w hw hkk => (decodeWord_of_opField_F (hw.trans hop)).trans (h w hkk)

end Sys2Proof
end

section
/-! ## The branches of the memory-block instructions, and what they leave in memory and in the registers -/

namespace Sys2Proof.Machine

open Claims

/-- `LD B,Vx` with the three bytes inside memory (R198). -/
theorem exec_ldBX_of_fits {s : State} (x : Reg) (h : s.i.toNat + 3 ≤ 0x1000) :
    exec (.ldBX x) s = .next { s.advance with mem := s.mem.writeBytes s.i.toNat (bcdDigits (s.readV x)) } :=
  accessing_of_fits (.inr h)

/-- `LD B,Vx` that passes `0xFFF` (R198, R213). -/
theorem exec_ldBX_of_passes {s : State} (x : Reg) (h : 0x1000 < s.i.toNat + 3) :
    exec (.ldBX x) s = .next (AccessFault s (some (encode (.ldBX x))) .bcdWrite (max s.i.toNat 0x1000)) :=
  accessing_of_passes (by decide) h

/-- `LD [I],Vx` with the block inside memory (R199). -/
theorem exec_ldMemX_of_fits {s : State} {x : Reg} (h : s.i.toNat + (x.val + 1) ≤ 0x1000) :
    exec (.ldMemX x) s = .next { s.advance with mem := s.mem.writeBytes s.i.toNat (s.blockBytes x) } :=
  accessing_of_fits (.inr h)

/-- `LD [I],Vx` that passes `0xFFF` (R199, R213). -/
theorem exec_ldMemX_of_passes {s : State} {x : Reg} (h : 0x1000 < s.i.toNat + (x.val + 1)) :
    exec (.ldMemX x) s = .next (AccessFault s (some (encode (.ldMemX x))) .blockStore (max s.i.toNat 0x1000)) :=
  accessing_of_passes x.val.succ_pos h

/-- `LD Vx,[I]` with the block inside memory (R200). -/
theorem exec_ldXMem_of_fits {s : State} {x : Reg} (h : s.i.toNat + (x.val + 1) ≤ 0x1000) :
    exec (.ldXMem x) s = .next (s.advance.loadBlock x s.i.toNat) :=
  accessing_of_fits (.inr h)

/-- `LD Vx,[I]` that passes `0xFFF` (R200, R213). -/
theorem exec_ldXMem_of_passes {s : State} {x : Reg} (h : 0x1000 < s.i.toNat + (x.val + 1)) :
    exec (.ldXMem x) s = .next (AccessFault s (some (encode (.ldXMem x))) .blockLoad (max s.i.toNat 0x1000)) :=
  accessing_of_passes x.val.succ_pos h

/-- Every digit fits its byte, so the stored bytes are the digits as numbers (R198). -/
theorem map_toNat_bcdDigits (b : Byte) :
    (bcdDigits b).map BitVec.toNat = [b.toNat / 100, b.toNat / 10 % 10, b.toNat % 10] := by
  have hb := b.isLt
  simp only [bcdDigits, List.map_cons, List.map_nil, BitVec.toNat_ofNat, List.cons.injEq, and_true]
  omega

/-- The three bytes at `base` after the digits of `b` are stored there (R57, R198). -/
theorem toNat_read_writeBytes_bcdDigits {m : Memory} (hm : m.wf) {base : Nat} (h : base + 3 ≤ 0x1000) (b : Byte)
    (j : Fin 3) : ((m.writeBytes base (bcdDigits b)).read (base + j)).toNat =
      [b.toNat / 100, b.toNat / 10 % 10, b.toNat % 10][j] := by
  simp only [← map_toNat_bcdDigits, Fin.getElem_fin, List.getElem_map]
  rw [read_writeBytes_of_inside (by simp) hm h]
  rfl

/-- The byte of `Vr` after `V0` to `Vx` are stored from `base` (R57, R199). -/
theorem read_writeBytes_blockBytes {m : Memory} (hm : m.wf) {base : Nat} {x r : Reg}
    (h : base + (x.val + 1) ≤ 0x1000) (hr : r ≤ x) (s : State) :
    (m.writeBytes base (s.blockBytes x)).read (base + r.val) = s.readV r := by
  rw [read_writeBytes_of_inside (by simp; omega) hm (by rwa [blockBytes_length]), blockBytes_getElem s x r hr]

end Sys2Proof.Machine
end

section
/-! ## The end of a cycle whose handler latches no record -/

namespace Sys2Proof.Machine

open Claims

/-- A fetched instruction's cycle is its handler and then the tick (R106). -/
theorem step_of_fetches {s u : State} {i : Instr} (h : Fetches s i) (hu : exec i s = .next u)
    (hfault : u.fault = s.fault) : step s = .next u.tick := by
  obtain ⟨hf, hw, hp, hd⟩ := h
  rw [step_of_decodes hf hw (by omega) hd, hu, endCycle, hfault, hf]
  rfl

end Sys2Proof.Machine
end

section
/-! ## The statements of 45_register_timer_memory.md -/

namespace Sys2Proof.Machine

/-- Settles O19: each handler is one copy after the advance, and the tick decrements what the handler left. -/
theorem timerInstructionsMeetTheTick : Obligations.TimerInstructionsMeetTheTick := by
  refine ⟨wordsDecodeTo_of_decodeF rfl fun _ => decodeF_of_kkField_07,
    wordsDecodeTo_of_decodeF rfl fun _ => decodeF_of_kkField_15,
    wordsDecodeTo_of_decodeF rfl fun _ => decodeF_of_kkField_18, fun x s =>
    ⟨⟨_, rfl, readV_writeV_self _ x _, keepsRegisters_advance_writeV s x _, rfl⟩, rfl, rfl,
      fun h => ⟨_, step_of_fetches h rfl rfl, ?_, toNat_tickByte s.dt⟩,
      fun h => ⟨_, step_of_fetches h rfl rfl, toNat_tickByte (s.readV x)⟩,
      fun h => ⟨_, step_of_fetches h rfl rfl, toNat_tickByte (s.readV x)⟩⟩⟩
  rw [readV_tick, readV_writeV_self]

/-- Settles O21: the two branches of the bounds check, and the bytes of a write of the three digits. -/
theorem bcdStoresDecimalDigits : Obligations.BcdStoresDecimalDigits := by
  refine ⟨wordsDecodeTo_of_decodeF rfl fun _ => decodeF_of_kkField_33,
    fun x s hm => ⟨fun hfits => ?_, fun hpasses => exec_ldBX_of_passes x (by omega)⟩⟩
  have hfits : s.i.toNat + 3 ≤ 0x1000 := by omega
  have hdigit := toNat_read_writeBytes_bcdDigits hm hfits (s.readV x)
  exact ⟨_, exec_ldBX_of_fits x hfits, hdigit 0, hdigit 1, hdigit 2,
    fun a ha => read_writeBytes_of_outside ha, rfl⟩

/-- Settles O22: the two branches of the bounds check, and the bytes of a write of `V0` to `Vx`. -/
theorem blockStoreWritesRegisters : Obligations.BlockStoreWritesRegisters := by
  refine ⟨wordsDecodeTo_of_decodeF rfl fun _ => decodeF_of_kkField_55,
    fun x s hm => ⟨fun hfits => ?_, fun hpasses => exec_ldMemX_of_passes (by omega)⟩⟩
  have hfits : s.i.toNat + (x.val + 1) ≤ 0x1000 := by omega
  refine ⟨_, exec_ldMemX_of_fits hfits, fun r hr => read_writeBytes_blockBytes hm hfits hr s, fun a ha => ?_, rfl⟩
  exact read_writeBytes_of_outside (by rwa [blockBytes_length, ← Nat.add_assoc])

/-- Settles O23: the two branches of the bounds check, and what a block load leaves in each register. -/
theorem blockLoadReadsRegisters : Obligations.BlockLoadReadsRegisters := by
  refine ⟨wordsDecodeTo_of_decodeF rfl fun _ => decodeF_of_kkField_65,
    fun x s => ⟨fun hfits => ?_, fun hpasses => exec_ldXMem_of_passes (by omega)⟩⟩
  refine ⟨_, exec_ldXMem_of_fits (by omega), fun r hr => ?_, fun r hr => ?_, ?_⟩
  · rw [readV_loadBlock, if_pos hr, advance_mem]
  · rw [readV_loadBlock, if_neg hr, readV_advance]
  · rw [loadBlock_eq]
    rfl

/-- Settles O18: the sum wraps at 16 bits, and the glyph address of any byte fits 16 bits. -/
theorem indexInstructionsWriteOnlyI : Obligations.IndexInstructionsWriteOnlyI := by
  refine ⟨wordsDecodeTo_of_opField fun _ => decodeWord_of_opField_A,
    wordsDecodeTo_of_decodeF rfl fun _ => decodeF_of_kkField_1E,
    wordsDecodeTo_of_decodeF rfl fun _ => decodeF_of_kkField_29, fun x nnn s =>
    ⟨⟨_, rfl, toNat_zextAddr nnn, rfl⟩, ⟨_, rfl, ?_, rfl⟩, ⟨_, rfl, ?_, rfl⟩⟩⟩
  · rw [BitVec.toNat_add, toNat_zextByte]
  · have hv := (s.readV x).isLt
    exact Nat.mod_eq_of_lt (by rw [Config.fontBase]; omega)

/-- Settles O20: the two branches of the handler are whether there is a lowest held key. -/
theorem keyWaitResolvesAtOnceOrWaits : Obligations.KeyWaitResolvesAtOnceOrWaits := by
  refine ⟨wordsDecodeTo_of_decodeF rfl fun _ => decodeF_of_kkField_0A,
    fun x s => ⟨fun k hheld hlower => ?_, fun hnone => exec_ldXK_of_none x (lowestKey_eq_none.2 hnone)⟩⟩
  refine ⟨_, exec_ldXK_of_held x (lowestKey_eq_some.2 ⟨hheld, hlower⟩), ?_, keepsRegisters_advance_writeV s x _, rfl⟩
  rw [readV_writeV_self, toNat_keyByte]

end Sys2Proof.Machine
end

section
/-! ## A cycle that latches a record, and a cycle over an unknown word (R212–R219) -/

namespace Sys2Proof.Machine

/-- The record of a faulting fetch is the one legal kind without a word (R213, R215). -/
theorem legal_fetchFault (pc : Word) {bad : Nat} (hbad : 0xFFF < bad) :
    (⟨.outOfBoundsAccess, pc, none, some .fetch, some bad⟩ : FaultRecord).legal :=
  ⟨.fetch, bad, rfl, rfl, hbad, by simp⟩

/-- A cycle that latches a record aborted in its fetch or in the handler of the word it fetched. -/
theorem step_latches_cases {s t : State} {r : FaultRecord} (h : step s = .next t) (hf : s.fault = none)
    (ht : t.fault = some r) :
    t = s.takeFault .outOfBoundsAccess none (some .fetch) (some (max s.pc.toNat 0x1000)) ∨
    ∃ i, decodeWord s.fetchWord = some i ∧ Aborts i s t := by
  rcases step_cases h with ⟨hf', -⟩ | ⟨-, _, -, rfl⟩ | ⟨-, -, -, rfl⟩ | ⟨-, -, -, -, rfl⟩ |
    ⟨-, -, -, i, u, hd, hu, rfl⟩
  · exact absurd hf hf'
  · rw [waitCycle_fault, hf] at ht; cases ht
  · exact .inl rfl
  · rw [tick_fault, advance_fault, hf] at ht; cases ht
  · rw [fault_endCycle] at ht
    obtain haborts | ⟨hfault, -⟩ := exec_aborts_or_completes hu
    · rw [ht]
      exact .inr ⟨i, hd, haborts⟩
    · rw [hfault, hf] at ht; cases ht

theorem phase_of_unknown {s : State} (hf : s.fault = none) (hw : s.wait = none) (hp : s.pc.toNat + 2 ≤ 0x1000)
    (hd : decodeWord s.fetchWord = none) : s.phase = .unknown s.fetchWord := by
  rcases phase_cases s with ⟨h, -⟩ | ⟨-, r, h, -⟩ | ⟨-, -, h, -⟩ | ⟨-, -, -, ⟨-, h⟩ | ⟨i, h, -⟩⟩
  · exact absurd hf h
  · rw [hw] at h; cases h
  · omega
  · exact h
  · rw [hd] at h; cases h

/-- The tick in the terms of the statements: a decrement of the number, floored at zero (R106). -/
theorem tickByte_eq_ofNat (b : Byte) : tickByte b = BitVec.ofNat 8 (b.toNat - 1) := by
  rw [← toNat_tickByte, BitVec.ofNat_toNat, BitVec.setWidth_eq]

end Sys2Proof.Machine
end

section
/-! ## The statements of 60_exceptions.md about a faulting cycle and about an unknown word -/

namespace Sys2Proof.Machine

/-- Settles O43: the fetch's record has no word, and the handler's has the encoding of what the fetched word decodes
to, which is that word. -/
theorem faultsAbortTheWholeCycle : Obligations.FaultsAbortTheWholeCycle := by
  intro s t r hf h ht
  obtain rfl | ⟨i, hd, r', hlegal, hpc, hword, rfl⟩ := step_latches_cases h hf ht
  · cases ht
    exact ⟨rfl, rfl, legal_fetchFault s.pc (lt_max_of_lt_right (by decide)), .inl rfl⟩
  · cases ht
    rw [encode_of_decodeWord hd] at hword
    exact ⟨rfl, hpc, hlegal, .inr hword⟩

/-- Settles O37: the cycle of an unknown word is the advance and the tick, and its diagnostic names that word. -/
theorem unknownOpcodeOnlyAdvancesAndTicks : Obligations.UnknownOpcodeOnlyAdvancesAndTicks := by
  intro s hf hw hp hd
  have hphase := phase_of_unknown hf hw (by omega) hd
  constructor
  · rw [step_unknown hphase, ← tickByte_eq_ofNat, ← tickByte_eq_ofNat]
    rfl
  · rw [diagnostic, hphase]
    rfl

end Sys2Proof.Machine
end

section
/-! ## The statements of 70_reset_and_hazards.md about the host's load (R243) -/

namespace Sys2Proof.Machine

/-- A program that fits is written from `PROGRAM_BASE` (R243). -/
theorem load_of_fits (s : State) {bytes : List Byte} (h : bytes.length ≤ Config.programMaxLen) :
    s.load bytes = some { s with mem := s.mem.writeBytes Config.programBase bytes } := if_pos h

/-- A program that does not fit is refused as a whole (R243). -/
theorem load_of_too_long (s : State) {bytes : List Byte} (h : Config.programMaxLen < bytes.length) :
    s.load bytes = none := if_neg (Nat.not_le.2 h)

/-- Up to `PROGRAM_MAX_LEN` bytes from `PROGRAM_BASE` end inside the address space (R56). -/
theorem programBase_add_length_le {bytes : List Byte} (h : bytes.length ≤ Config.programMaxLen) :
    Config.programBase + bytes.length ≤ Config.addrMax + 1 := by
  unfold Config.programMaxLen at h
  unfold Config.programBase Config.addrMax
  omega

/-- Settles O58: the two branches of the length check, and the bytes of a write that ends inside the address space. -/
theorem loadStoresTheProgramOrIsRefused : Obligations.LoadStoresTheProgramOrIsRefused := by
  refine fun s bytes hm => ⟨fun hfits => ?_, fun hlong => load_of_too_long s hlong⟩
  refine ⟨_, load_of_fits s hfits, fun j hj => ?_, fun a ha => read_writeBytes_of_outside ha, rfl⟩
  have hstored : (s.mem.writeBytes Config.programBase bytes).read (Config.programBase + j) = bytes[j] :=
    read_writeBytes_of_inside hj hm (programBase_add_length_le hfits)
  exact (List.getElem?_eq_getElem hj).trans (congrArg some hstored.symm)

end Sys2Proof.Machine
end

section
/-! ## What every handler answers: a fault, or one of the effects a handler can have (R78, R105) -/

namespace Sys2Proof.Machine

open Claims

/-- When the handler of `i` faults on the state its cycle began in (R213, R217). -/
def HandlerRaises (s : State) : Instr → Prop
  | .ret _ => s.sp.val = 0
  | .call _ => s.sp.val = 16
  | .drw _ _ n => 0 < n ∧ s.i.toNat + n - 1 > 0xFFF
  | .ldBX _ => s.i.toNat + 2 > 0xFFF
  | .ldMemX x | .ldXMem x => s.i.toNat + x.val > 0xFFF
  | _ => False

/-- All that a handler which runs to its end can do to the state, by the fields it writes beside `PC`. -/
inductive Effect (s : State) : Instr → State → Prop where
  | jump {i : Instr} {p : Word} (hi : jumpsOrSkips i) (hp : p.toNat ≤ 0x10FE ∨ p = s.pc + 2 ∨ p = s.pc + 4) :
      Effect s i { s with pc := p }
  | pop (ignored : Nibble) : Effect s (.ret ignored) s.advance.popPc
  | push (nnn : Addr) : Effect s (.call nnn) { s.advance.push s.advance.pc with pc := zextAddr nnn }
  | registers {i : Instr} {v : Vector Byte 16}
      (hv : KeepsRegisters s { s.advance with v := v } (writesReg · i)) : Effect s i { s.advance with v := v }
  | random (x : Reg) (kk b : Byte) (n : Nat) : Effect s (.rnd x kk) { s.advance.writeV x b with draws := n }
  | clear (ignored : Nibble) (fb : Framebuffer) : Effect s (.cls ignored) { s.advance with fb := fb }
  | draw (x y : Reg) (n : Nat) : Effect s (.drw x y n) (s.afterDraw x y n)
  | index {i : Instr} (w : Word) (hi : (∃ nnn, i = .ldI nnn) ∨ (∃ x, i = .addIX x) ∨ ∃ x, i = .ldFX x) :
      Effect s i { s.advance with i := w }
  | store {i : Instr} {bytes : List Byte} (hi : storedBytes s i = (s.i.toNat, bytes.length))
      (hfits : s.i.toNat + bytes.length ≤ 0x1000) :
      Effect s i { s.advance with mem := s.mem.writeBytes s.i.toNat bytes }
  | delay (x : Reg) (b : Byte) : Effect s (.ldDtX x) { s.advance with dt := b }
  | sound (x : Reg) (b : Byte) : Effect s (.ldStX x) { s.advance with st := b }
  | wait (x : Reg) (hnone : ∀ k, s.keyHeld k = false) : Effect s (.ldXK x) { s.advance with wait := some x }

/-- The handler of `i` on `s` faults and leaves `t`, or runs to its end and leaves `t`. -/
def Handles (i : Instr) (s t : State) : Prop :=
  (HandlerRaises s i ∧ Aborts i s t) ∨ (¬ HandlerRaises s i ∧ Effect s i t)

/-- A skip is a jump by two or by four (R129). -/
theorem effect_skip {s : State} {i : Instr} (hi : jumpsOrSkips i) (c : Bool) : Effect s i (s.advance.skipIf c) := by
  rw [advance_skipIf]
  cases c with
  | false => exact .jump hi (.inr (.inl rfl))
  | true => exact .jump hi (.inr (.inr rfl))

theorem effect_writeV {s : State} {i : Instr} (x : Reg) (b : Byte) (hi : ∀ r, r = x → writesReg r i) :
    Effect s i (s.advance.writeV x b) :=
  .registers fun r hr => keepsRegisters_advance_writeV s x b r (hr ∘ hi r)

theorem effect_writeFlagged {s : State} {i : Instr} (x : Reg) (a b : Byte)
    (hi : ∀ r, r = x ∨ r = 15 → writesReg r i) : Effect s i (s.advance.writeFlagged x a b) :=
  .registers fun r hr => keepsRegisters_advance_writeFlagged s x a b r (hr ∘ hi r)

theorem effect_loadBlock (s : State) (x : Reg) (base : Nat) :
    Effect s (.ldXMem x) (s.advance.loadBlock x base) := by
  have hkeeps : KeepsRegisters s (s.advance.loadBlock x base) (writesReg · (.ldXMem x)) := fun r hr =>
    (readV_loadBlock s.advance x r base).trans (if_neg hr)
  rw [loadBlock_eq] at hkeeps ⊢
  exact .registers hkeeps

/-- What an access to memory makes of a handler: the bounds check decides which of the two it is (R58, R213). -/
theorem handles_accessing {i : Instr} {access : AccessKind} {base : Word} {count : Nat} {s done : State}
    (haccess : access ≠ .fetch) (hraises : HandlerRaises s i ↔ 0 < count ∧ 0x1000 < base.toNat + count)
    (hdone : count = 0 ∨ base.toNat + count ≤ 0x1000 → Effect s i done) :
    ∃ t, accessing i access base count s done = .next t ∧ Handles i s t := by
  by_cases hfits : count = 0 ∨ base.toNat + count ≤ 0x1000
  · exact ⟨_, accessing_of_fits hfits, .inr ⟨fun h => by have := hraises.1 h; omega, hdone hfits⟩⟩
  · have hpasses : 0 < count ∧ 0x1000 < base.toNat + count := by omega
    refine ⟨_, accessing_of_passes hpasses.1 hpasses.2, .inl ⟨hraises.2 hpasses, _, ?_, rfl, rfl, rfl⟩⟩
    exact ⟨access, _, rfl, rfl, lt_max_of_lt_right (by decide), by simp [haccess]⟩

/-- Every handler answers a next state on every state, and this is all it can be. -/
theorem exec_handles (i : Instr) (s : State) : ∃ t, exec i s = .next t ∧ Handles i s t := by
  cases i
  case ret g =>
    by_cases hsp : s.sp.val = 0
    · exact ⟨_, exec_ret_of_empty g hsp, .inl ⟨hsp, aborts_stackFault _ s (.inr rfl)⟩⟩
    · exact ⟨_, exec_ret_of_nonempty g hsp, .inr ⟨hsp, .pop g⟩⟩
  case call nnn =>
    by_cases hsp : s.sp.val = 16
    · exact ⟨_, exec_call_of_full nnn hsp, .inl ⟨hsp, aborts_stackFault _ s (.inl rfl)⟩⟩
    · exact ⟨_, exec_call_of_room nnn (by omega), .inr ⟨hsp, .push nnn⟩⟩
  case drw x y n => exact handles_accessing (by decide) (by unfold HandlerRaises; omega) fun _ => .draw x y n
  case ldBX x =>
    exact handles_accessing (by decide) (by unfold HandlerRaises; omega) fun h =>
      .store rfl (h.resolve_left (by decide))
  case ldMemX x =>
    refine handles_accessing (by decide) (by unfold HandlerRaises; omega) fun h => .store ?_ ?_
    · rw [blockBytes_length]; rfl
    · rw [blockBytes_length]; omega
  case ldXMem x =>
    exact handles_accessing (by decide) (by unfold HandlerRaises; omega) fun _ => effect_loadBlock s x _
  case ldXK x =>
    cases hk : s.lowestKey with
    | some k => exact ⟨_, exec_ldXK_of_held x hk, .inr ⟨id, effect_writeV x _ fun _ => id⟩⟩
    | none => exact ⟨_, exec_ldXK_of_none x hk, .inr ⟨id, .wait x (lowestKey_eq_none.1 hk)⟩⟩
  all_goals refine ⟨_, rfl, .inr ⟨id, ?_⟩⟩
  case jp nnn => exact .jump trivial (.inl (by rw [toNat_zextAddr]; omega))
  case jpV0 nnn => exact .jump trivial (.inl (by rw [toNat_zextByte_add_zextAddr]; omega))
  case seKk | sneKk | seXy | sneXy | skp | sknp =>
    refine effect_skip ?_ _
    exact trivial
  case ldKk | addKk | ldXy | orXy | andXy | xorXy | ldXDt => exact effect_writeV _ _ fun _ => id
  case addXy | sub | shr | subn | shl => exact effect_writeFlagged _ _ _ fun _ => id
  case rnd x kk => exact .random x kk _ _
  case cls g => exact .clear g _
  case ldI nnn => exact .index _ (.inl ⟨nnn, rfl⟩)
  case addIX x => exact .index _ (.inr (.inl ⟨x, rfl⟩))
  case ldFX x => exact .index _ (.inr (.inr ⟨x, rfl⟩))
  case ldDtX x => exact .delay x _
  case ldStX x => exact .sound x _

theorem handles_of_exec {i : Instr} {s t : State} (h : exec i s = .next t) : Handles i s t := by
  obtain ⟨u, hu, hhandles⟩ := exec_handles i s
  cases hu.symm.trans h
  exact hhandles

/-- Only six instructions have a handler that can fault (R211). -/
theorem instr_of_handlerRaises {s : State} {i : Instr} (h : HandlerRaises s i) :
    (∃ nnn, i = .call nnn) ∨ (∃ ignored, i = .ret ignored) ∨ (∃ x y n, i = .drw x y n) ∨
      (∃ x, i = .ldBX x) ∨ (∃ x, i = .ldMemX x) ∨ (∃ x, i = .ldXMem x) := by
  cases i
  case call nnn => exact .inl ⟨nnn, rfl⟩
  case ret g => exact .inr (.inl ⟨g, rfl⟩)
  case drw x y n => exact .inr (.inr (.inl ⟨x, y, n, rfl⟩))
  case ldBX x => exact .inr (.inr (.inr (.inl ⟨x, rfl⟩)))
  case ldMemX x => exact .inr (.inr (.inr (.inr (.inl ⟨x, rfl⟩))))
  case ldXMem x => exact .inr (.inr (.inr (.inr (.inr ⟨x, rfl⟩))))
  all_goals exact h.elim

end Sys2Proof.Machine
end

section
/-! ## What every cycle keeps of the invariant (R110, R123, R219) -/

namespace Sys2Proof.Machine

theorem inv_tick {s : State} (h : s.Inv) : s.tick.Inv := ⟨h.mem_wf, h.pc_le, h.stack_le, h.halted⟩

/-- A core that is not halted has no record to account for. -/
theorem inv_of_running {s : State} (hmem : s.mem.wf) (hpc : s.pc.toNat ≤ 0x10FE)
    (hstack : ∀ j : Fin 16, s.stack[j].toNat ≤ 0x1000) (hf : s.fault = none) : s.Inv :=
  ⟨hmem, hpc, hstack, fun r hr => by rw [hf] at hr; cases hr⟩

theorem inv_waitCycle {s : State} (h : s.Inv) (hf : s.fault = none) (r : Reg) : (s.waitCycle r).Inv := by
  cases hk : s.lowestKey with
  | some k => rw [waitCycle_of_held hk]; exact inv_of_running h.mem_wf h.pc_le h.stack_le hf
  | none => rw [waitCycle_of_none hk]; exact inv_tick h

/-- The core halts where the cycle began, with nothing else changed (R214, R219). -/
theorem inv_of_latches {s : State} {r : FaultRecord} (h : s.Inv) (hw : s.wait = none) (hlegal : r.legal)
    (hpc : r.pc = s.pc) : State.Inv { s with fault := some r } :=
  ⟨h.mem_wf, h.pc_le, h.stack_le, fun _ hr => by cases hr; exact ⟨hw, hpc, hlegal⟩⟩

/-- A pop reads a slot of the stack, whatever `SP` is. -/
theorem top_le {s : State} (h : s.Inv) : s.top.toNat ≤ 0x1000 := by
  have hslot : s.sp.val - 1 < 16 := by omega
  have htop : s.stack[s.sp.val - 1] = s.top :=
    Option.some.inj ((Vector.getElem?_eq_getElem hslot).symm.trans (stack_getElem?_eq_top s))
  rw [← htop]
  exact h.stack_le ⟨_, hslot⟩

/-- A push of a return address leaves no slot above `0x1000`. -/
theorem push_stack_le {s : State} (h : s.Inv) {w : Word} (hw : w.toNat ≤ 0x1000) (j : Fin 16) :
    (s.push w).stack[j].toNat ≤ 0x1000 := by
  rw [push_stack, Fin.getElem_fin, Vector.getElem_setIfInBounds]
  split
  · exact hw
  · exact h.stack_le j

/-- After a fetch `PC` was at most `0xFFE`. -/
theorem toNat_pc_add_two {s : State} (hp : s.pc.toNat + 2 ≤ 0x1000) : (s.pc + 2).toNat ≤ 0x1000 := by
  bv_omega

/-- The cycle of an unknown word, but for the tick (R212). -/
theorem inv_advance {s : State} (h : s.Inv) (hf : s.fault = none) (hp : s.pc.toNat + 2 ≤ 0x1000) :
    s.advance.Inv :=
  inv_of_running h.mem_wf ((toNat_pc_add_two hp).trans (by decide)) h.stack_le hf

/-- A handler that runs to its end keeps the invariant: `PC` was fetchable, so `pc0 + 4` is at most `0x1002`. -/
theorem inv_of_effect {s t : State} {i : Instr} (h : s.Inv) (hf : s.fault = none)
    (hp : s.pc.toNat + 2 ≤ 0x1000) (he : Effect s i t) : t.Inv := by
  have htwo : (s.pc + 2).toNat ≤ 0x1000 := toNat_pc_add_two hp
  have hpc : (s.pc + 2).toNat ≤ 0x10FE := htwo.trans (by decide)
  cases he with
  | jump _ hp' =>
    refine inv_of_running h.mem_wf ?_ h.stack_le hf
    obtain hle | rfl | rfl := hp'
    · exact hle
    · exact hpc
    · show (s.pc + 4).toNat ≤ 0x10FE
      bv_omega
  | pop => exact inv_of_running h.mem_wf ((top_le h).trans (by decide)) h.stack_le hf
  | push nnn =>
    refine inv_of_running h.mem_wf ?_ (push_stack_le h htwo) hf
    show (zextAddr nnn).toNat ≤ 0x10FE
    rw [toNat_zextAddr]
    omega
  | store _ hfits => exact inv_of_running (writeBytes_wf h.mem_wf hfits) hpc h.stack_le hf
  | registers | random | clear | draw | index | delay | sound | wait =>
    exact inv_of_running h.mem_wf hpc h.stack_le hf

/-- Settles O52: the five things a cycle can do, and what a handler can do when one runs. -/
theorem stepKeepsTheInvariant : Obligations.StepKeepsTheInvariant := by
  intro s t h hstep
  obtain ⟨-, rfl⟩ | ⟨hf, r, -, rfl⟩ | ⟨-, hw, -, rfl⟩ | ⟨hf, -, hp, -, rfl⟩ | ⟨hf, hw, hp, i, u, -, hu, rfl⟩ :=
    step_cases hstep
  · exact h
  · exact inv_waitCycle h hf r
  · exact inv_of_latches h hw (legal_fetchFault s.pc (lt_max_of_lt_right (by decide))) rfl
  · exact inv_tick (inv_advance h hf hp)
  · have hkeeps : u.Inv := by
      obtain ⟨-, r, hlegal, hpc, -, rfl⟩ | ⟨-, he⟩ := handles_of_exec hu
      · exact inv_of_latches h hw hlegal hpc
      · exact inv_of_effect h hf hp he
    split
    · exact hkeeps
    · exact inv_tick hkeeps

end Sys2Proof.Machine
end

section
/-! ## Frames: what each instruction leaves alone -/

namespace Sys2Proof.Machine

open Claims

/-- Settles O26: a handler that writes registers keeps those not named for it. -/
theorem onlyNamedRegistersAreWritten : Obligations.OnlyNamedRegistersAreWritten := by
  intro i s t h
  obtain ⟨-, r, -, -, -, rfl⟩ | ⟨-, he⟩ := handles_of_exec h
  · exact fun _ _ => rfl
  · cases he with
    | registers hv => exact hv
    | random x kk b n => exact keepsRegisters_advance_writeV s x b
    | draw x y n => exact keepsRegisters_afterDraw s x y n
    | jump | pop | push | clear | index | store | delay | sound | wait => exact fun _ _ => rfl

/-- Settles O27: a store changes the bytes of its block, and no other effect writes memory. -/
theorem onlyStoredBytesChange : Obligations.OnlyStoredBytesChange := by
  intro i s t h a ha
  obtain ⟨-, r, -, -, -, rfl⟩ | ⟨-, he⟩ := handles_of_exec h
  · rfl
  · cases he with
    | store hi =>
      rw [hi] at ha
      exact read_writeBytes_of_outside ha
    | jump | pop | push | registers | random | clear | draw | index | delay | sound | wait => rfl

/-- Settles O28: one effect writes `I`, and it is of the three instructions. -/
theorem onlyIndexInstructionsWriteI : Obligations.OnlyIndexInstructionsWriteI := by
  intro i s t h hne
  obtain ⟨-, r, -, -, -, rfl⟩ | ⟨-, he⟩ := handles_of_exec h
  · exact absurd rfl hne
  · cases he with
    | index w hi => exact hi
    | jump | pop | push | registers | random | clear | draw | store | delay | sound | wait => exact absurd rfl hne

/-- Settles O29: a push writes a slot and `SP`, a pop `SP` alone. -/
theorem onlyCallAndRetTouchTheStack : Obligations.OnlyCallAndRetTouchTheStack := by
  intro i s t h
  obtain ⟨-, r, -, -, -, rfl⟩ | ⟨-, he⟩ := handles_of_exec h
  · exact ⟨absurd rfl, absurd rfl⟩
  · cases he with
    | push nnn => exact ⟨fun _ => ⟨nnn, rfl⟩, fun _ => .inl ⟨nnn, rfl⟩⟩
    | pop g => exact ⟨absurd rfl, fun _ => .inr ⟨g, rfl⟩⟩
    | jump | registers | random | clear | draw | index | store | delay | sound | wait =>
      exact ⟨absurd rfl, absurd rfl⟩

/-- Settles O30: a clear and a draw write the framebuffer, and no effect writes the keypad. -/
theorem onlyClsAndDrwChangePixels : Obligations.OnlyClsAndDrwChangePixels := by
  intro i s t h
  obtain ⟨-, r, -, -, -, rfl⟩ | ⟨-, he⟩ := handles_of_exec h
  · exact ⟨absurd rfl, rfl⟩
  · cases he with
    | clear g => exact ⟨fun _ => .inl ⟨g, rfl⟩, rfl⟩
    | draw x y n => exact ⟨fun _ => .inr ⟨x, y, n, rfl⟩, rfl⟩
    | jump | pop | push | registers | random | index | store | delay | sound | wait => exact ⟨absurd rfl, rfl⟩

/-- Settles O31: a fault writes the record alone, and only six handlers can fault; otherwise each of the other fields
is written by the one effect named for it. -/
theorem onlyNamedInstructionsTouchSystemState : Obligations.OnlyNamedInstructionsTouchSystemState := by
  intro i s t h
  obtain ⟨hraises, r, -, -, -, rfl⟩ | ⟨-, he⟩ := handles_of_exec h
  · exact ⟨absurd rfl, absurd rfl, absurd rfl, absurd rfl, fun _ => instr_of_handlerRaises hraises⟩
  · cases he with
    | delay x => exact ⟨fun _ => ⟨x, rfl⟩, absurd rfl, absurd rfl, absurd rfl, absurd rfl⟩
    | sound x => exact ⟨absurd rfl, fun _ => ⟨x, rfl⟩, absurd rfl, absurd rfl, absurd rfl⟩
    | wait x => exact ⟨absurd rfl, absurd rfl, fun _ => ⟨x, rfl⟩, absurd rfl, absurd rfl⟩
    | random x kk => exact ⟨absurd rfl, absurd rfl, absurd rfl, fun _ => ⟨x, kk, rfl⟩, absurd rfl⟩
    | jump | pop | push | registers | clear | draw | index | store =>
      exact ⟨absurd rfl, absurd rfl, absurd rfl, absurd rfl, absurd rfl⟩

/-- Settles O32: every effect but a jump, a pop and a push starts from the advanced `PC` and keeps it. -/
theorem otherInstructionsAdvanceByTwo : Obligations.OtherInstructionsAdvanceByTwo := by
  intro i s t hi _ h ht
  obtain ⟨-, r, -, -, -, rfl⟩ | ⟨-, he⟩ := handles_of_exec h
  · cases ht
  · cases he with
    | jump hjumps => exact absurd hjumps hi
    | pop | push => exact absurd trivial hi
    | registers | random | clear | draw | index | store | delay | sound | wait => rfl

end Sys2Proof.Machine
end

section
/-! ## Every cycle answers a next state, and which cycles fault (R211, R213, R217, R253) -/

namespace Sys2Proof.Machine

open Claims

/-- Settles O40: every phase answers a next state, the running one because every handler does. -/
theorem everyCycleAnswersANextState : Obligations.EveryCycleAnswersANextState := by
  intro s
  rcases phase_cases s with ⟨-, hp⟩ | ⟨-, r, -, hp⟩ | ⟨-, -, -, hp⟩ | ⟨-, -, -, ⟨-, hp⟩ | ⟨i, -, hp⟩⟩
  · exact ⟨_, step_halted hp⟩
  · exact ⟨_, step_waiting hp⟩
  · exact ⟨_, step_fetchFault hp⟩
  · exact ⟨_, step_unknown hp⟩
  · obtain ⟨u, hu, -⟩ := exec_handles i s
    exact ⟨_, (step_running hp).trans (congrArg endCycle hu)⟩

/-- On a fetchable word the listed cases are those of the handler it decodes to. -/
theorem raises_iff {s : State} (hp : s.pc.toNat < 0xFFF) :
    Raises s ↔ ∃ i, decodeWord s.fetchWord = some i ∧ HandlerRaises s i := by
  constructor
  · rintro (h | ⟨-, ⟨⟨g, hd⟩, h⟩ | ⟨⟨nnn, hd⟩, h⟩ | ⟨x, y, n, hd, h⟩ | ⟨⟨x, hd⟩, h⟩ | ⟨x, hd | hd, h⟩⟩)
    · omega
    all_goals exact ⟨_, hd, h⟩
  · rintro ⟨i, hd, h⟩
    refine .inr ⟨hp, ?_⟩
    obtain ⟨nnn, rfl⟩ | ⟨g, rfl⟩ | ⟨x, y, n, rfl⟩ | ⟨x, rfl⟩ | ⟨x, rfl⟩ | ⟨x, rfl⟩ := instr_of_handlerRaises h
    · exact .inr (.inl ⟨⟨nnn, hd⟩, h⟩)
    · exact .inl ⟨⟨g, hd⟩, h⟩
    · exact .inr (.inr (.inl ⟨x, y, n, hd, h⟩))
    · exact .inr (.inr (.inr (.inl ⟨⟨x, hd⟩, h⟩)))
    · exact .inr (.inr (.inr (.inr ⟨x, .inl hd, h⟩)))
    · exact .inr (.inr (.inr (.inr ⟨x, .inr hd, h⟩)))

/-- A handler latches a record exactly in its listed case. -/
theorem fault_ne_none_iff_handlerRaises {i : Instr} {s t : State} (h : exec i s = .next t) (hf : s.fault = none) :
    t.fault ≠ none ↔ HandlerRaises s i := by
  obtain ⟨hraises, r, -, -, -, rfl⟩ | ⟨hnot, he⟩ := handles_of_exec h
  · exact iff_of_true (Option.some_ne_none r) hraises
  · refine iff_of_false (not_not_intro ?_) hnot
    cases he <;> exact hf

/-- Settles O42: a cycle latches a record in its fetch or in its handler. -/
theorem faultsAreExactlyTheListedOnes : Obligations.FaultsAreExactlyTheListedOnes := by
  intro s t hf hw h
  obtain ⟨hf', -⟩ | ⟨-, r, hw', -⟩ | ⟨-, -, hp, rfl⟩ | ⟨-, -, hp, hd, rfl⟩ | ⟨-, -, hp, i, u, hd, hu, rfl⟩ :=
    step_cases h
  · exact absurd hf hf'
  · rw [hw] at hw'; cases hw'
  · exact iff_of_true (Option.some_ne_none _) (.inl (by omega))
  · rw [raises_iff (by omega), hd]
    exact iff_of_false (not_not_intro hf) fun ⟨_, hi, _⟩ => nomatch hi
  · rw [raises_iff (by omega), fault_endCycle, fault_ne_none_iff_handlerRaises hu hf, hd]
    exact ⟨fun hr => ⟨i, rfl, hr⟩, fun ⟨_, hi, hr⟩ => Option.some.inj hi ▸ hr⟩

end Sys2Proof.Machine
end

section
/-! ## The wait state, and the runs in which only the timers change (R35, R102, R234, R254) -/

namespace Sys2Proof.Machine

open Claims

/-- Only `LD Vx,K` with no key held writes `Wait`. -/
theorem wait_of_exec {i : Instr} {s t : State} (h : exec i s = .next t) :
    t.wait = s.wait ∨ ∃ x, i = .ldXK x ∧ t.wait = some x ∧ ∀ k, s.keyHeld k = false := by
  obtain ⟨-, r, -, -, -, rfl⟩ | ⟨-, he⟩ := handles_of_exec h
  · exact .inl rfl
  · cases he with
    | wait x hnone => exact .inr ⟨x, rfl, rfl, hnone⟩
    | jump | pop | push | registers | random | clear | draw | index | store | delay | sound => exact .inl rfl

/-- Whether or not the handler faulted, the end of the cycle keeps the wait state. -/
theorem wait_endCycle (u : State) : (if u.fault.isSome then u else u.tick).wait = u.wait := by split <;> rfl

/-- All a cycle can do to `Wait`: keep it, clear it in a waiting cycle that sees a held key, or set it in the handler
of `LD Vx,K`. -/
theorem wait_of_step {s t : State} (h : step s = .next t) :
    t.wait = s.wait ∨
    (s.fault = none ∧ t.wait = none ∧ ∃ k, s.keyHeld k = true) ∨
    ∃ x, s.wait = none ∧ Fetches s (.ldXK x) ∧ t.wait = some x ∧ ∀ k, s.keyHeld k = false := by
  obtain ⟨-, rfl⟩ | ⟨hf, r, -, rfl⟩ | ⟨-, -, -, rfl⟩ | ⟨-, -, -, -, rfl⟩ | ⟨hf, hw, hp, i, u, hd, hu, rfl⟩ :=
    step_cases h
  · exact .inl rfl
  · cases hk : s.lowestKey with
    | none => rw [waitCycle_of_none hk]; exact .inl rfl
    | some k => rw [waitCycle_of_held hk]; exact .inr (.inl ⟨hf, rfl, k, (lowestKey_eq_some.1 hk).1⟩)
  · exact .inl rfl
  · exact .inl rfl
  · rw [wait_endCycle]
    obtain hkept | ⟨x, rfl, hset, hnone⟩ := wait_of_exec hu
    · exact .inl hkept
    · exact .inr (.inr ⟨x, hw, ⟨hf, hw, by omega, hd⟩, hset, hnone⟩)

/-- Settles O39, by the three things a cycle can do to `Wait`. -/
theorem onlyKeyWaitSetsAndKeysClearWait : Obligations.OnlyKeyWaitSetsAndKeysClearWait := by
  intro s t r h
  obtain hkept | ⟨hf, hcleared, hheld⟩ | ⟨x, hw, hfetches, hset, hnone⟩ := wait_of_step h
  · rw [hkept]
    exact ⟨.inl, fun hw hne => absurd hw hne⟩
  · rw [hcleared]
    exact ⟨(nomatch ·), fun _ _ => ⟨hf, rfl, hheld⟩⟩
  · rw [hset, hw]
    exact ⟨fun hr => .inr ⟨Option.some.inj hr ▸ hfetches, hnone⟩, (nomatch ·)⟩

/-- If the cycles of the states in `P` only tick, and a tick stays in `P`, then `n` cycles take `n` off both timers,
floored at zero. -/
theorem run_of_step_ticks {P : State → Prop} (hstep : ∀ s, P s → step s = .next s.tick)
    (htick : ∀ s, P s → P s.tick) (n : Nat) : ∀ s, P s → Host.Core.run core n s = .next { s with
      dt := BitVec.ofNat 8 (s.dt.toNat - n), st := BitVec.ofNat 8 (s.st.toNat - n) } := by
  induction n with
  | zero =>
    intro s _
    simp only [Nat.sub_zero, BitVec.ofNat_toNat, BitVec.setWidth_eq]
    rfl
  | succ n ih =>
    intro s hs
    rw [run_succ n (show core.step s = .next s.tick from hstep s hs), ih s.tick (htick s hs)]
    simp only [tick_dt, tick_st, toNat_tickByte, Nat.sub_sub, Nat.add_comm 1 n]
    rfl

/-- Settles O35: with no key held a waiting cycle is a tick, and the core waits on. -/
theorem waitingLastsUntilAKeyIsHeld : Obligations.WaitingLastsUntilAKeyIsHeld := by
  intro n s r hf hw hnone
  refine run_of_step_ticks (P := fun s => s.fault = none ∧ s.wait = some r ∧ ∀ k, s.keyHeld k = false) ?_
    (fun _ h => h) n s ⟨hf, hw, hnone⟩
  rintro s ⟨hf, hw, hnone⟩
  rw [step_waiting (phase_of_waiting hf hw), waitCycle_of_none (lowestKey_eq_none.2 hnone)]

/-- A jump to itself changes nothing. -/
theorem exec_jp_of_self {s : State} {nnn : Addr} (h : nnn.toNat = s.pc.toNat) : exec (.jp nnn) s = .next s := by
  have hpc : zextAddr nnn = s.pc := BitVec.eq_of_toNat_eq ((toNat_zextAddr nnn).trans h)
  rw [exec, execJp, hpc]
  rfl

/-- Settles O41: the cycle of a self-loop is a jump to itself and the tick, and the tick changes no byte. -/
theorem selfLoopChangesOnlyTheTimers : Obligations.SelfLoopChangesOnlyTheTimers := by
  refine run_of_step_ticks (P := SelfLoop) ?_ (fun _ h => h)
  rintro s ⟨hw, hf, hp, nnn, hd, hself⟩
  exact step_of_fetches ⟨hf, hw, hp, hd⟩ (exec_jp_of_self hself) rfl

end Sys2Proof.Machine
end

section
/-! ## The decoder and the encoder are inverse (R78, R82, R84) -/

namespace Sys2Proof

theorem decodeWord_of_opField_C {w : Word} (h : opField w = 0xC) :
    decodeWord w = some (.rnd (regOf (xField w)) (kkField w)) := by
  rw [decodeWord, h]
  rfl

/-- R82: each family's key, and each field of its form, is read back from the packed word. -/
theorem decodeWord_encode {i : Instr} (h : WellFormed i = true) : decodeWord (encode i) = some i := by
  cases i
  case cls | ret => exact (decodeWord_of_opField_0 (opField_packXkk ..)).trans (by simp [decode0])
  case jp => exact (decodeWord_of_opField_1 (opField_packNnn ..)).trans (by simp)
  case call => exact (decodeWord_of_opField_2 (opField_packNnn ..)).trans (by simp)
  case seKk => exact (decodeWord_of_opField_3 (opField_packXkk ..)).trans (by simp)
  case sneKk => exact (decodeWord_of_opField_4 (opField_packXkk ..)).trans (by simp)
  case seXy => exact (decodeWord_of_opField_5 (opField_packXyn ..)).trans (by simp)
  case ldKk => exact (decodeWord_of_opField_6 (opField_packXkk ..)).trans (by simp)
  case addKk => exact (decodeWord_of_opField_7 (opField_packXkk ..)).trans (by simp)
  case ldXy | orXy | andXy | xorXy | addXy | sub | shr | subn | shl =>
    exact (decodeWord_of_opField_8 (opField_packXyn ..)).trans (by simp [decode8])
  case sneXy => exact (decodeWord_of_opField_9 (opField_packXyn ..)).trans (by simp)
  case ldI => exact (decodeWord_of_opField_A (opField_packNnn ..)).trans (by simp)
  case jpV0 => exact (decodeWord_of_opField_B (opField_packNnn ..)).trans (by simp)
  case rnd => exact (decodeWord_of_opField_C (opField_packXkk ..)).trans (by simp)
  case drw x y n =>
    have hn : n % 16 = n := Nat.mod_eq_of_lt (Nat.lt_succ_of_le (of_decide_eq_true h))
    exact (decodeWord_of_opField_D (opField_packXyn ..)).trans (by simp [hn])
  case skp | sknp => exact (decodeWord_of_opField_E (opField_packXkk ..)).trans (by simp [decodeE])
  case ldXDt | ldXK | ldDtX | ldStX | addIX | ldFX | ldBX | ldMemX | ldXMem =>
    exact (decodeWord_of_opField_F (opField_packXkk ..)).trans (by simp [decodeF])

/-- The decoder takes the first two bytes for the word and leaves the rest (R70, R85). -/
theorem decode_of_decodeWord {high low : Byte} {i : Instr} (rest : List Byte)
    (h : decodeWord (wordOfBytes high low) = some i) : decode (high :: low :: rest) = .ok (i, rest) := by
  simp only [decode, h]

/-- Settles O46: the word decodes by its leading nibble and its key, and the two bytes are the word's. -/
theorem decodeInvertsEncode : Obligations.DecodeInvertsEncode := fun i rest h =>
  ⟨decodeWord_encode h, decode_of_decodeWord rest (by rw [wordOfBytes_high_low, decodeWord_encode h])⟩

/-- A word decodes to a well-formed instruction: a sprite's row count is a nibble. -/
theorem wellFormed_of_decodeWord {w : Word} {i : Instr} (h : decodeWord w = some i) : WellFormed i = true := by
  cases i
  case drw x y n =>
    have hop : opField w = 0xD := by rw [← encode_of_decodeWord h]; exact opField_packXyn ..
    cases (decodeWord_of_opField_D hop).symm.trans h
    exact decide_eq_true (Nat.le_of_lt_succ (nField w).isLt)
  all_goals rfl

/-- Settles O47: the decoder loses no bit, and a row count it reads fits its nibble. -/
theorem encodeInvertsDecode : Obligations.EncodeInvertsDecode := fun _ _ h =>
  ⟨encode_of_decodeWord h, wellFormed_of_decodeWord h⟩

end Sys2Proof
end

section
/-! ## The unknown words, by arithmetic on the word (R75, R83) -/

namespace Sys2Proof

open Claims

theorem toNat_opField (w : Word) : (opField w).toNat = w.toNat / 0x1000 := by
  have hw := w.isLt
  simp only [opField, BitVec.extractLsb'_toNat, Nat.shiftRight_eq_div_pow]
  omega

theorem toNat_kkField (w : Word) : (kkField w).toNat = w.toNat % 256 := by
  simp only [kkField, BitVec.extractLsb'_toNat, Nat.shiftRight_zero]

theorem toNat_nField (w : Word) : (nField w).toNat = w.toNat % 16 := by
  simp only [nField, BitVec.extractLsb'_toNat, Nat.shiftRight_zero]

theorem opIs_iff (w : Word) (op : Nibble) : OpIs w op.toNat ↔ opField w = op := by
  rw [OpIs, ← toNat_opField, BitVec.toNat_inj]

/-! Each family's decoder by cases: an arm with a key answers an instruction, the last arm none. -/

theorem decode0_eq_none {w : Word} : decode0 w = none ↔ w.toNat % 256 ∉ [0xE0, 0xEE] := by
  rw [← toNat_kkField]
  unfold decode0
  split <;> simp_all [BitVec.toNat_eq]

theorem decodeE_eq_none {w : Word} : decodeE w = none ↔ w.toNat % 256 ∉ [0x9E, 0xA1] := by
  rw [← toNat_kkField]
  unfold decodeE
  split <;> simp_all [BitVec.toNat_eq]

theorem decodeF_eq_none {w : Word} : decodeF w = none ↔
    w.toNat % 256 ∉ [0x07, 0x0A, 0x15, 0x18, 0x1E, 0x29, 0x33, 0x55, 0x65] := by
  rw [← toNat_kkField]
  unfold decodeF
  split <;> simp_all [BitVec.toNat_eq]

theorem decode8_eq_none {w : Word} : decode8 w = none ↔ w.toNat % 16 ∈ [0x8, 0x9, 0xA, 0xB, 0xC, 0xD, 0xF] := by
  rw [← toNat_nField]
  unfold decode8
  split
  case h_10 =>
    have hlt := (nField w).isLt
    simp_all [BitVec.toNat_eq]
    omega
  all_goals simp_all

/-- Settles O48: only four leading nibbles have words with no handler, those whose key the family does not know. -/
theorem unknownWordsAreExactlyTheListedOnes : Obligations.UnknownWordsAreExactlyTheListedOnes := by
  intro w
  rw [show OpIs w 0x0 ↔ _ from opIs_iff w 0x0, show OpIs w 0x8 ↔ _ from opIs_iff w 0x8,
    show OpIs w 0xE ↔ _ from opIs_iff w 0xE, show OpIs w 0xF ↔ _ from opIs_iff w 0xF,
    ← decode0_eq_none, ← decode8_eq_none, ← decodeE_eq_none, ← decodeF_eq_none]
  constructor
  · intro h
    obtain ⟨hop, hd⟩ | ⟨hop, hd⟩ | ⟨hop, hd⟩ | ⟨hop, hd⟩ | ⟨i, hd, -⟩ := decodeWord_dispatch w <;> rw [hd] at h
    · exact .inl ⟨hop, h⟩
    · exact .inr (.inl ⟨hop, h⟩)
    · exact .inr (.inr (.inl ⟨hop, h⟩))
    · exact .inr (.inr (.inr ⟨hop, h⟩))
    · cases h
  · rintro (⟨hop, h⟩ | ⟨hop, h⟩ | ⟨hop, h⟩ | ⟨hop, h⟩)
    · rw [decodeWord_of_opField_0 hop, h]
    · rw [decodeWord_of_opField_8 hop, h]
    · rw [decodeWord_of_opField_E hop, h]
    · rw [decodeWord_of_opField_F hop, h]

/-- Settles O50, by running the decoder on the words listed. -/
theorem specWordsDecodeAsListed : Obligations.SpecWordsDecodeAsListed := by
  unfold Obligations.SpecWordsDecodeAsListed
  decide

end Sys2Proof
end

section
/-! ## A `CALL` and the `RET` at its target (R28, R121, R123) -/

namespace Sys2Proof.Machine

/-- The top of a stack just pushed on is the pushed word. -/
theorem top_push (s : State) (w : Word) (h : s.sp.val < 16) : (s.push w).top = w := by
  have htop := stack_getElem?_eq_top (s.push w)
  rw [push_sp_val s w h, Nat.add_sub_cancel, push_stack_getElem?_self s w h] at htop
  exact (Option.some.inj htop).symm

/-- A pop takes `SP` back to where it was before the push. -/
theorem popPc_push_sp (s : State) (w : Word) (h : s.sp.val < 16) : (s.push w).popPc.sp = s.sp := by
  have hpushed := push_sp_val s w h
  exact Fin.ext ((popPc_sp_val (by omega)).trans (by omega))

/-- A push and a pop jump to the pushed word and change nothing else but the slot. -/
theorem popPc_push (s : State) (w : Word) (h : s.sp.val < 16) :
    (s.push w).popPc = { s with pc := w, stack := (s.push w).stack } := by
  calc (s.push w).popPc
    _ = { s with pc := (s.push w).top, stack := (s.push w).stack, sp := (s.push w).popPc.sp } := rfl
    _ = _ := by rw [top_push s w h, popPc_push_sp s w h]

/-- Settles O7: the `PC` between the two is overwritten by the pop, so the two are a push and a pop. -/
theorem callThenReturnResumes : Obligations.CallThenReturnResumes := by
  intro nnn g s hsp
  have hpushed := push_sp_val s.advance (s.pc + 2) hsp
  refine ⟨_, (s.advance.push (s.pc + 2)).popPc, exec_call_of_room nnn hsp,
    exec_ret_of_nonempty g (Nat.ne_of_gt ?_), popPc_push s.advance (s.pc + 2) hsp,
    fun j hj => push_stack_getElem?_of_ne s.advance (s.pc + 2) hj⟩
  exact hpushed ▸ Nat.succ_pos _

end Sys2Proof.Machine
end

section
/-! ## The same sprite drawn twice (R170, R173) -/

namespace Sys2Proof.Machine

open Claims

section
variable {s : State} {x y : Reg} {n : Nat}

/-- A draw of coordinates that are not in `VF` leaves the coordinates of the next one as they were. -/
theorem drawn_afterDraw (hx : x ≠ 15) (hy : y ≠ 15) :
    (s.afterDraw x y n).drawn x y n =
      drawSprite s.mem s.i.toNat n (s.readV x) (s.readV y) (s.drawn x y n).1 := by
  rw [State.drawn, keepsRegisters_afterDraw s x y n x hx, keepsRegisters_afterDraw s x y n y hy]
  rfl

/-- Each pixel is flipped twice or not at all. -/
theorem afterDraw_afterDraw_fb (hn : n ≤ 15) (hx : x ≠ 15) (hy : y ≠ 15) :
    ((s.afterDraw x y n).afterDraw x y n).fb = s.fb := by
  have hpixel := fun fb => (drawSprite_spec s.mem s.i.toNat (s.readV x) (s.readV y) fb n (by omega)).1
  refine framebuffer_ext fun r c => ?_
  show ((s.afterDraw x y n).drawn x y n).1.pixel r c = s.fb.pixel r c
  rw [drawn_afterDraw hx hy, hpixel, State.drawn, hpixel, Bool.xor_assoc, Bool.xor_self, Bool.xor_false]

/-- A draw over pixels that are all off does not collide. -/
theorem drawn_eq_false_of_off (hn : n ≤ 15) (hoff : ∀ row < 32, ∀ col < 64,
    SpriteCovers s n (s.readV x).toNat (s.readV y).toNat row col → s.fbView (row * 64 + col) = false) :
    (s.drawn x y n).2 = false := by
  rw [← Bool.not_eq_true, drawn_collides_iff hn]
  rintro ⟨row, hrow, col, hcol, hcovers, hon⟩
  rw [hoff row hrow col hcol hcovers] at hon
  cases hon

/-- A draw over a covered pixel that was off turns it on, so the same draw again collides. -/
theorem drawn_afterDraw_collides (hn : n ≤ 15) (hx : x ≠ 15) (hy : y ≠ 15) {row col : Nat} (hrow : row < 32)
    (hcol : col < 64) (hcovers : SpriteCovers s n (s.readV x).toNat (s.readV y).toNat row col)
    (hoff : s.fbView (row * 64 + col) = false) : ((s.afterDraw x y n).drawn x y n).2 = true := by
  rw [drawn_collides_iff hn, keepsRegisters_afterDraw s x y n x hx, keepsRegisters_afterDraw s x y n y hy]
  refine ⟨row, hrow, col, hcol, hcovers, ?_⟩
  rw [fbView_afterDraw_of_covered hn hrow hcol hcovers, hoff]
  rfl

end

/-- Settles O16: the second draw has the sprite and the place of the first. -/
theorem drawingTwiceErases : Obligations.DrawingTwiceErases := by
  intro x y n s hn hfits hx hy
  have hfits : n = 0 ∨ s.i.toNat + n ≤ 0x1000 := by omega
  refine ⟨_, _, exec_drw_of_fits x y hfits, exec_drw_of_fits x y hfits, afterDraw_afterDraw_fb hn hx hy,
    fun hoff => ⟨?_, ?_⟩⟩
  · rw [readV_afterDraw_flag, drawn_eq_false_of_off hn hoff]
    rfl
  · rintro ⟨row, hrow, col, hcol, hcovers⟩
    rw [readV_afterDraw_flag,
      drawn_afterDraw_collides hn hx hy hrow hcol hcovers (hoff row hrow col hcol hcovers)]
    rfl

end Sys2Proof.Machine
end

section
/-! ## What is read after a block store: by a block load, and by the next fetch (R66, R199, R200) -/

namespace Sys2Proof.Machine

/-- Settles O24: the load reads the stored block, from the same `I`. -/
theorem storeThenLoadRestores : Obligations.StoreThenLoadRestores := by
  intro x s v' hm hfits
  have hfits : s.i.toNat + (x.val + 1) ≤ 0x1000 := by omega
  refine ⟨_, _, exec_ldMemX_of_fits hfits, exec_ldXMem_of_fits hfits, fun r hr => ?_, fun r hr => ?_⟩
  · rw [readV_loadBlock, if_pos hr]
    exact read_writeBytes_blockBytes hm hfits hr s
  · rw [readV_loadBlock, if_neg (not_le.2 hr)]
    rfl

theorem toNat_wordOfBytes (high low : Byte) : (wordOfBytes high low).toNat = high.toNat * 256 + low.toNat := by
  rw [wordOfBytes, BitVec.toNat_append, ← Nat.shiftLeft_add_eq_or_of_lt low.isLt, Nat.shiftLeft_eq]

/-- Settles O25: the two bytes at the advanced `PC` are the first two of the stored block. -/
theorem storeIsSeenByTheNextFetch : Obligations.StoreIsSeenByTheNextFetch := by
  intro x s hm hx hi hfits
  have hfits : s.i.toNat + (x.val + 1) ≤ 0x1000 := by omega
  have hhigh : (s.mem.writeBytes s.i.toNat (s.blockBytes x)).read s.i.toNat = s.readV 0 :=
    read_writeBytes_blockBytes hm hfits (Fin.zero_le x) s
  have hlow : (s.mem.writeBytes s.i.toNat (s.blockBytes x)).read (s.i.toNat + 1) = s.readV 1 :=
    read_writeBytes_blockBytes (r := 1) hm hfits hx s
  refine ⟨_, exec_ldMemX_of_fits hfits, ?_⟩
  rw [State.fetchWord, toNat_wordOfBytes]
  simp only [advance_pc, ← hi, hhigh, hlow]

end Sys2Proof.Machine
end

section
/-! ## A random draw, ignored bits, and the cycle that fetches (R84, R100, R103, R155) -/

namespace Sys2Proof.Machine

open Claims

/-- Settles O14: the handler is one register write, and the library says the bits of its value. -/
theorem rndMasksTheDraw : Obligations.RndMasksTheDraw := by
  refine ⟨wordsDecodeTo_of_opField fun _ => decodeWord_of_opField_C,
    fun x kk s => ⟨_, rfl, fun b => ?_, keepsRegisters_advance_writeV s x _, rfl⟩⟩
  have hx := readV_writeV_self s.advance x (Config.randomByte s.draws &&& kk)
  exact (congrArg (·.getLsbD b) hx).trans BitVec.getLsbD_and

/-- Bytes that decode with nothing left over are the word the decoder knows (R70). -/
theorem decodeWord_of_decode {high low : Byte} {i : Instr} {rest : List Byte}
    (h : decode (high :: low :: rest) = .ok (i, rest)) : decodeWord (wordOfBytes high low) = some i := by
  cases hd : decodeWord (wordOfBytes high low) with
  | some j =>
    rw [decode_of_decodeWord rest hd] at h
    cases h
    rfl
  | none => simp [decode, hd] at h

/-- Settles O33: the cycle is the handler and the end of the cycle, which ticks unless a record was latched. -/
theorem stepRunsTheDecodedInstruction : Obligations.StepRunsTheDecodedInstruction := by
  intro s i t hf hw hp hd h
  have hstep : step s = endCycle (.next t) := h ▸ step_of_decodes hf hw (by omega) (decodeWord_of_decode hd)
  refine ⟨fun ht => ?_, fun ht => ?_⟩
  · rw [hstep, endCycle, if_neg (by simp [ht]), ← tickByte_eq_ofNat, ← tickByte_eq_ofNat]
    rfl
  · rw [hstep, endCycle, if_pos (Option.isSome_iff_ne_none.2 ht)]

/-- Settles O36: the only phase of such a state is the faulting fetch. -/
theorem fetchPastTheEndFaults : Obligations.FetchPastTheEndFaults := by
  intro s hf hw hpc
  rcases phase_cases s with ⟨hf', -⟩ | ⟨-, r, hw', -⟩ | ⟨-, -, -, hp⟩ | ⟨-, -, hp, -⟩
  · exact absurd hf hf'
  · rw [hw] at hw'; cases hw'
  · exact step_fetchFault hp
  · omega

/-- Settles O51: no handler but the faulting `RET` reads the ignored bits. -/
theorem ignoredBitsChangeNothing : Obligations.IgnoredBitsChangeNothing := fun _ _ a b _ =>
  ⟨rfl, rfl, rfl, rfl, rfl, fun hsp => (exec_ret_of_nonempty a hsp).trans (exec_ret_of_nonempty b hsp).symm⟩

end Sys2Proof.Machine
end

section
/-! ## The invariant at reset, under what the host does, and in every reachable state (R240, R243, R244) -/

namespace Sys2Proof.Machine

/-- Settles O53: an empty list of bytes is canonical, and the core is not halted. -/
theorem resetMeetsTheInvariant : Obligations.ResetMeetsTheInvariant :=
  inv_of_running wf_nil (by decide) (by decide) rfl

/-- A reset at any boundary leaves a state that meets the invariant. -/
theorem inv_hostReset (s : State) : s.hostReset.Inv :=
  inv_of_running wf_nil resetMeetsTheInvariant.pc_le resetMeetsTheInvariant.stack_le rfl

theorem inv_setKey {s : State} (h : s.Inv) (k : KeyIndex) (held : Bool) : (s.setKey k held).Inv :=
  ⟨h.mem_wf, h.pc_le, h.stack_le, h.halted⟩

/-- A load that is not refused writes bytes inside the address space (R243). -/
theorem inv_of_load {s t : State} {bytes : List Byte} (h : s.Inv) (hload : s.load bytes = some t) : t.Inv := by
  by_cases hfits : bytes.length ≤ Config.programMaxLen
  · cases (load_of_fits s hfits).symm.trans hload
    exact ⟨writeBytes_wf h.mem_wf (programBase_add_length_le hfits), h.pc_le, h.stack_le, h.halted⟩
  · rw [load_of_too_long s (Nat.lt_of_not_le hfits)] at hload
    cases hload

/-- Settles O54: the three host actions one by one. -/
theorem hostActionsKeepTheInvariant : Obligations.HostActionsKeepTheInvariant := fun s h =>
  ⟨inv_setKey h, inv_hostReset s, fun _ _ => inv_of_load h⟩

/-- The invariant holds at reset, and every cycle and host action keeps it. -/
theorem inv_of_reachable {s : State} (h : Reachable s) : s.Inv := by
  induction h with
  | boot hload => exact inv_of_load resetMeetsTheInvariant hload
  | reboot _ hload => exact inv_of_load (inv_hostReset _) hload
  | cycle _ hstep ih => exact stepKeepsTheInvariant _ _ ih hstep
  | setKey _ ih => exact inv_setKey ih _ _

/-- Settles O55, from the invariant of the reachable states. -/
theorem reachableStatesAreLegal : Obligations.ReachableStatesAreLegal := by
  intro s hs
  obtain ⟨hmem, hpc, -, hhalted⟩ := inv_of_reachable hs
  refine ⟨hpc, hmem, fun hf => ?_, fun r hr => (hhalted r hr).2.2⟩
  obtain ⟨r, hr⟩ := Option.ne_none_iff_exists'.1 hf
  exact (hhalted r hr).1

end Sys2Proof.Machine
end

section
/-! ## The values after reset, and a key write (R42, R55, R227) -/

namespace Sys2Proof.Machine

open Claims

/-- The font table of the model is the spec's, glyph by glyph (R55). -/
theorem resetByte_font : ∀ d < 16, ∀ j < 5, resetByte (0x050 + 5 * d + j) = (glyphs.getD d []).getD j 0 := by
  decide

/-- Outside the font table every byte is zero after reset (R42, R44). -/
theorem resetByte_of_outside {a : Nat} (h : a < 0x050 ∨ 0x09F < a) : resetByte a = 0 := by
  unfold resetByte Config.fontBase
  split
  · exact List.getD_eq_default _ _ (show 80 ≤ a - 0x050 by omega)
  · rfl

/-- Settles O56: an unlisted byte of memory holds its reset value, and the other elements are the constants of
`State.reset`. -/
theorem resetStateIsAsListed : Obligations.ResetStateIsAsListed :=
  ⟨fun d j hd hj => resetByte_font d hd j hj, fun _ => resetByte_of_outside, by decide, rfl, rfl, by decide, rfl,
    rfl, rfl, by decide, flat_replicate_zero, rfl, rfl⟩

/-- Settles O57: a key is read back from the keypad as it was written, and every other key as it was. -/
theorem hostResetsAndSetsKeys : Obligations.HostResetsAndSetsKeys := by
  refine fun s => ⟨rfl, rfl, fun k held => ⟨fun j => ?_, rfl⟩⟩
  simp only [State.keyHeld, setKey_key, Fin.getElem_fin, Vector.getElem_set, Fin.val_inj, eq_comm]

end Sys2Proof.Machine
end
